-- ==== Sys2Proof/Word.lean ====
section
/-! DEFINITION. The widths of the block's values (00_scope.md R13). -/

namespace Sys2Proof

/-- A V register, DT, ST, a memory byte, an immediate kk, a random byte (R13). -/
abbrev Byte := BitVec 8

/-- PC, I, a stack entry, an opcode (R13). -/
abbrev Word := BitVec 16

/-- The fields x, y and n of an opcode, and a key index (R13; 10_state.md R65). -/
abbrev Nibble := BitVec 4

/-- A nibble indexes the sixteen V registers and the sixteen keys. -/
theorem Nibble.toNat_lt_sixteen (k : Nibble) : k.toNat < 16 := k.isLt

/-- The field nnn of an opcode (R13). -/
abbrev Addr12 := BitVec 12

end Sys2Proof
end

