-- ==== Sys2Proof/Config.lean ====
section
/-! DEFINITION. The static configuration inputs of the block (00_scope.md R10; 10_state.md R69) and the values the
spec leaves open. This spec's own values of the parameters stand in Sys2Proof/Machine/Parameters.lean. -/

namespace Sys2Proof

/-- SHIFT_SOURCE: `legacy` shifts VY, `modern` shifts VX (42_alu.md R214). -/
inductive ShiftSource where
  | legacy
  | modern
deriving DecidableEq, Repr, Inhabited

/-- SPRITE_EDGE: whether DRW wraps pixels past an edge or drops them (44_display.md R293). -/
inductive SpriteEdge where
  | wrap
  | clip
deriving DecidableEq, Repr, Inhabited

/-- The five configuration inputs, fixed for a session (00_scope.md R10). The bound of `fontBase` is the parameter's
legal range, FONT_BASE + 80 ≤ 0x200. -/
structure Config where
  shiftSource  : ShiftSource
  spriteEdge   : SpriteEdge
  fontBase     : Fin 433
  fontData     : Vector Byte 80
  pcAlignCheck : Bool
deriving DecidableEq, Repr

/-- SHIFT_SOURCE of the session that begins at `State.reset`. The spec leaves it OPEN (00_scope.md R10; D7), so no
proof can see which it is (log 2). -/
opaque Config.openShiftSource : ShiftSource

/-- SPRITE_EDGE of the session that begins at `State.reset`, OPEN in the same way (00_scope.md R10; D8; log 2). -/
opaque Config.openSpriteEdge : SpriteEdge

/-- The byte the RNG port gives to the k-th RND since reset when the host has supplied none: a free value
(10_state.md R64; 42_alu.md R219; log 6). -/
opaque Config.randomByte : Nat → Byte

end Sys2Proof
end

