-- ==== Sys2Proof/Machine/Parameters.lean ====
section
/-! DEFINITION. The values this spec gives the configuration parameters (00_scope.md R10; log 3), and the two OPEN ones
as free values (log 2). -/

namespace Sys2Proof.Machine

/-- FONT_BASE, this spec's value (10_state.md R47; D12). -/
def standardFontBase : Fin 433 := 0x050

/-- The glyphs of the digits 0 to 7 (10_state.md R49). -/
def standardGlyphsLow : List Byte :=
  [0xF0, 0x90, 0x90, 0x90, 0xF0] ++ [0x20, 0x60, 0x20, 0x20, 0x70] ++
  [0xF0, 0x10, 0xF0, 0x80, 0xF0] ++ [0xF0, 0x10, 0xF0, 0x10, 0xF0] ++
  [0x90, 0x90, 0xF0, 0x10, 0x10] ++ [0xF0, 0x80, 0xF0, 0x10, 0xF0] ++
  [0xF0, 0x80, 0xF0, 0x90, 0xF0] ++ [0xF0, 0x10, 0x20, 0x40, 0x40]

/-- The glyphs of the digits 8 to F (10_state.md R49). -/
def standardGlyphsHigh : List Byte :=
  [0xF0, 0x90, 0xF0, 0x90, 0xF0] ++ [0xF0, 0x90, 0xF0, 0x10, 0xF0] ++
  [0xF0, 0x90, 0xF0, 0x90, 0x90] ++ [0xE0, 0x90, 0xE0, 0x90, 0xE0] ++
  [0xF0, 0x80, 0x80, 0x80, 0xF0] ++ [0xE0, 0x90, 0x90, 0x90, 0xE0] ++
  [0xF0, 0x80, 0xF0, 0x80, 0xF0] ++ [0xF0, 0x80, 0xF0, 0x80, 0x80]

/-- FONT_DATA, this spec's value: the table of 10_state.md R49 (D13). -/
def standardFontData : Vector Byte 80 := ⟨(standardGlyphsLow ++ standardGlyphsHigh).toArray, rfl⟩

/-- PC_ALIGN_CHECK, this spec's value (10_state.md R36; D20). -/
def standardPcAlignCheck : Bool := true

/-- The configuration of the session that begins at `State.reset`. -/
def sessionConfig : Config where
  shiftSource := Config.openShiftSource
  spriteEdge := Config.openSpriteEdge
  fontBase := standardFontBase
  fontData := standardFontData
  pcAlignCheck := standardPcAlignCheck

end Sys2Proof.Machine
end

