-- ==== Sys2Proof/Machine/State.lean ====
section
/-! DEFINITION. The state of the block: the architectural state of 10_state.md R52 whole, the two output bits of the
last step, the static inputs, and the RNG port's supply. Plain data. -/

namespace Sys2Proof.Machine

/-- Why the block is halted, with the information recorded (60_exceptions.md R351). -/
inductive HaltReason where
  | invalidOpcode (opcode : Word)
  | memoryOutOfBounds (address : Nat)
  | stackOverflow
  | stackUnderflow
  | romTooLarge (length : Nat)
  | misalignedFetch (pc : Word)
  | keyIndexOutOfRange (value : Byte)
deriving DecidableEq, Repr

/-- The run state (10_state.md R43): one of two macro-states, and only reset leaves `halted`. -/
inductive RunState where
  | running
  | halted (reason : HaltReason)
deriving DecidableEq, Repr

/-- The framebuffer: 32 rows of 64 one-bit pixels, row 0 at the top and column 0 at the left (10_state.md R45). -/
abbrev Framebuffer := Vector (Vector Bool 64) 32

/-- Memory as the cells that differ from its reset image, addresses strictly rising (`Memory.wf`). -/
abbrev Memory := List Host.Cell

/-- The state of the machine. -/
structure State where
  /-- V0 to VF (10_state.md R30). -/
  v : Vector Byte 16
  /-- The program counter (10_state.md R33). -/
  pc : Word
  /-- The index register I (10_state.md R37). -/
  i : Word
  /-- STACK[0..15] (10_state.md R39); entries at or above `sp` keep what was last written there. -/
  stack : Vector Word 16
  /-- SP, the number of valid stack entries, 0 to 16 (10_state.md R39). -/
  sp : Fin 17
  /-- The delay timer DT (10_state.md R41). -/
  dt : Byte
  /-- The sound timer ST (10_state.md R42). -/
  st : Byte
  /-- The 4096 bytes of memory (10_state.md R44). -/
  memory : Memory
  /-- The 64 x 32 pixels (10_state.md R45). -/
  framebuffer : Framebuffer
  /-- Key(0x0) to Key(0xF), true when pressed (10_state.md R46). -/
  keypad : Vector Bool 16
  /-- Running or Halted (10_state.md R43). -/
  runState : RunState
  /-- Output of the last step: it executed CLS or DRW to completion (10_state.md R61; log 5). -/
  displayChanged : Bool
  /-- Output of the last step: it executed LD_VX_KEY with no key pressed (10_state.md R61; log 5). -/
  waiting : Bool
  /-- The static configuration inputs (10_state.md R69); no event changes them (log 1). -/
  config : Config
  /-- RNG port: the bytes the host has supplied and RND has not yet taken, oldest first (10_state.md R64; log 6). -/
  rngSupply : List Byte
  /-- RNG port: how many bytes RND has taken (log 6). -/
  rngDrawn : Nat
deriving DecidableEq, Repr

/-- The faults of the model: there are none. Every fatal condition of the spec is an entry to the Halted state, which
60_exceptions.md R356 describes, so the step that meets it answers a next state (log 4). -/
inductive Fault : Type
deriving DecidableEq, Repr

/-- The refusals of the model. -/
inductive Refusal where
  /-- Raised by an arm of `exec` whose instruction has no meaning yet; safe. No arm raises it: every row of the opcode
  map has its meaning. -/
  | notModelled (mnemonic : String)
deriving DecidableEq, Repr

/-- The machine right after reset with an empty ROM (10_state.md R53; 70_reset_and_hazards.md R390, R391): memory lists
nothing, since what an unlisted address reads as is the reset image itself. -/
def State.reset : State where
  v := Vector.replicate 16 0x00
  pc := 0x200
  i := 0x0000
  stack := Vector.replicate 16 0x0000
  sp := 0
  dt := 0x00
  st := 0x00
  memory := []
  framebuffer := Vector.replicate 32 (Vector.replicate 64 false)
  keypad := Vector.replicate 16 false
  runState := .running
  displayChanged := false
  waiting := false
  config := sessionConfig
  rngSupply := []
  rngDrawn := 0

end Sys2Proof.Machine
end

