-- ==== Sys2Proof/Machine/Ops.lean ====
section
/-! DEFINITION. The named operations over the state: halt entry, registers, memory, the program counter, the call stack,
the keypad, the framebuffer and the RNG port (00_scope.md R14). Every meaning is written over these. -/

namespace Sys2Proof.Machine

/-- What a step answers. -/
abbrev StepResult := Host.Outcome State Fault Refusal

/-- A value, or the reason a check of the spec raises Halt. -/
abbrev Checked (α : Type) := Except HaltReason α

/-! ### Taking a halt -/

/-- Halt entry: the run state is written and nothing else (60_exceptions.md R356). There is no return from it but the
reset event (R360). -/
def State.halt (s : State) (r : HaltReason) : State := { s with runState := .halted r }

/-- The end of an instruction that has one check: the halt it raises, taken in the state before the instruction's
writes, or the state its writes make (00_scope.md R15; 60_exceptions.md R352). -/
def completeWith {α : Type} (s : State) (check : Checked α) (writes : α → State) : StepResult :=
  match check with
  | .error r => .next (s.halt r)
  | .ok a => .next (writes a)

/-! ### General registers (10_state.md R30) -/

/-- `V[x]`. -/
def State.readV (s : State) (x : Nibble) : Byte := s.v[x.toNat]'x.toNat_lt_sixteen

/-- `V[x] <- b`. No register is hardwired (R30). -/
def State.writeV (s : State) (x : Nibble) (b : Byte) : State :=
  { s with v := s.v.set x.toNat b x.toNat_lt_sixteen }

/-- `V[k], V[k+1], … <- bytes`, the loop of LD_VX_I (43_index_memory.md R255). -/
def State.writeVsFrom (s : State) (k : Nat) : List Byte → State
  | [] => s
  | b :: bytes => (s.writeV (BitVec.ofNat 4 k) b).writeVsFrom (k + 1) bytes

/-! ### Memory (20_memory.md) -/

/-- MEM_SIZE (00_scope.md R9). -/
def memSize : Nat := 4096

/-- ROM_BASE (00_scope.md R9). -/
def romBase : Nat := 0x200

/-- What an address that memory does not list reads as: the reset image, FONT_DATA at FONT_BASE and zero elsewhere
(10_state.md R53; 20_memory.md R88). -/
def Memory.unlisted (cfg : Config) (addr : Nat) : Byte :=
  if h : cfg.fontBase.val ≤ addr ∧ addr < cfg.fontBase.val + 80 then
    cfg.fontData[addr - cfg.fontBase.val]'(by omega)
  else 0x00

/-- The byte at an address. -/
def Memory.read (cfg : Config) : Memory → Nat → Byte
  | [], addr => Memory.unlisted cfg addr
  | (a, b) :: rest, addr => if a = addr then b else Memory.read cfg rest addr

/-- Put a cell before cells of higher addresses, unless it holds what its address reads as anyway. -/
def Memory.cons (cfg : Config) (addr : Nat) (b : Byte) (rest : Memory) : Memory :=
  if b = Memory.unlisted cfg addr then rest else (addr, b) :: rest

/-- Write the byte at an address, keeping the canonical form. -/
def Memory.write (cfg : Config) : Memory → Nat → Byte → Memory
  | [], addr, b => Memory.cons cfg addr b []
  | (a, c) :: rest, addr, b =>
    if addr < a then Memory.cons cfg addr b ((a, c) :: rest)
    else if addr = a then Memory.cons cfg addr b rest
    else (a, c) :: Memory.write cfg rest addr b

/-- The canonical form from address `low` up: addresses strictly rising and inside memory, no cell equal to what its
address reads as. -/
def Memory.wfFrom (cfg : Config) (low : Nat) : Memory → Bool
  | [] => true
  | (a, b) :: rest =>
    decide (low ≤ a) && decide (a < memSize) && decide (b ≠ Memory.unlisted cfg a) && Memory.wfFrom cfg (a + 1) rest

/-- The canonical form of memory. -/
def Memory.wf (cfg : Config) (m : Memory) : Bool := Memory.wfFrom cfg 0 m

/-- mem[addr], for an address that has passed its check. -/
def State.byteAt (s : State) (addr : Nat) : Byte := Memory.read s.config s.memory addr

/-- mem[addr] <- b, for an address that has passed its check. -/
def State.setByte (s : State) (addr : Nat) (b : Byte) : State :=
  { s with memory := Memory.write s.config s.memory addr b }

/-- mem[addr], mem[addr+1], … <- bytes. -/
def State.setBytes (s : State) (addr : Nat) : List Byte → State
  | [] => s
  | b :: bytes => (s.setByte addr b).setBytes (addr + 1) bytes

/-- `MemRead(addr, 1)`: the address is an unbounded natural, checked first (20_memory.md R81). -/
def State.memRead (s : State) (addr : Nat) : Checked Byte :=
  if addr ≥ memSize then .error (.memoryOutOfBounds addr) else .ok (s.byteAt addr)

/-- `MemWrite(addr, 1, b)` (20_memory.md R81). -/
def State.memWrite (s : State) (addr : Nat) (b : Byte) : Checked State :=
  if addr ≥ memSize then .error (.memoryOutOfBounds addr) else .ok (s.setByte addr b)

/-- `CheckRange(base, count)` (20_memory.md R82). -/
def checkRange (base count : Nat) : Checked Unit :=
  if count > 0 ∧ base + count - 1 ≥ memSize then .error (.memoryOutOfBounds (max base memSize)) else .ok ()

/-- The `count` bytes from `base`, after their CheckRange (20_memory.md R82). -/
def State.memReadRange (s : State) (base count : Nat) : Checked (List Byte) :=
  match checkRange base count with
  | .error r => .error r
  | .ok _ => .ok ((List.range count).map fun k => s.byteAt (base + k))

/-- Write the bytes from `base`, after their CheckRange (20_memory.md R82). -/
def State.memWriteRange (s : State) (base : Nat) (bytes : List Byte) : Checked State :=
  match checkRange base bytes.length with
  | .error r => .error r
  | .ok _ => .ok (s.setBytes base bytes)

/-! ### Program counter -/

/-- `PC <- target`. -/
def State.jump (s : State) (target : Word) : State := { s with pc := target }

/-- `PC <- PC + 2` when the condition holds: the skipped word is neither fetched nor decoded (41_control_flow.md
R168). -/
def State.skipIf (s : State) (condition : Bool) : State :=
  if condition then { s with pc := s.pc + 2 } else s

/-! ### Call stack (10_state.md R39, R40) -/

/-- Push a return address, or StackOverflow with 16 entries (41_control_flow.md R162). -/
def State.push (s : State) (value : Word) : Checked State :=
  if h : s.sp.val < 16 then
    .ok { s with stack := s.stack.set s.sp.val value h, sp := ⟨s.sp.val + 1, by omega⟩ }
  else .error .stackOverflow

/-- Pop the newest entry, or StackUnderflow with none (41_control_flow.md R160). The popped slot keeps its value
(95_test_vectors.md P2). -/
def State.pop (s : State) : Checked (Word × State) :=
  if h : s.sp.val = 0 then .error .stackUnderflow
  else .ok (s.stack[s.sp.val - 1]'(by omega), { s with sp := ⟨s.sp.val - 1, by omega⟩ })

/-! ### Keypad (10_state.md R46) -/

/-- `Key(k)`. -/
def State.key (s : State) (k : Nibble) : Bool := s.keypad[k.toNat]'k.toNat_lt_sixteen

/-- `Key(k) <- pressed`, the host's alone (10_state.md R65). -/
def State.withKey (s : State) (k : Nibble) (pressed : Bool) : State :=
  { s with keypad := s.keypad.set k.toNat pressed k.toNat_lt_sixteen }

/-- The smallest k with `Key(k) = 1` (45_keypad_timers.md R322). -/
def State.lowestKey (s : State) : Option Nibble :=
  ((List.range 16).map (BitVec.ofNat 4)).find? s.key

/-! ### Framebuffer (10_state.md R45) -/

/-- `Pixel(x, y)` of the pair (x, y). -/
def Framebuffer.pixel (fb : Framebuffer) (p : Fin 64 × Fin 32) : Bool := fb[p.2][p.1]

/-- `Pixel(x, y) <- Pixel(x, y) ^ 1`. -/
def Framebuffer.toggle (fb : Framebuffer) (p : Fin 64 × Fin 32) : Framebuffer :=
  fb.set p.2 (fb[p.2].set p.1 (!fb[p.2][p.1]))

/-- Every pixel 0 (44_display.md R290). -/
def Framebuffer.clear : Framebuffer := Vector.replicate 32 (Vector.replicate 64 false)

/-- XOR a sprite's drawn bits onto the framebuffer in turn, noting whether one fell on a lit pixel (44_display.md R292,
R294). -/
def drawPixels : List (Fin 64 × Fin 32) → Framebuffer × Bool → Framebuffer × Bool
  | [], drawn => drawn
  | p :: ps, (fb, collided) => drawPixels ps (Framebuffer.toggle fb p, collided || Framebuffer.pixel fb p)

/-! ### RNG port (10_state.md R64) -/

/-- `RandomByte()`: the oldest byte the host has supplied, else a free one; the draw is counted (log 6). -/
def State.drawByte (s : State) : Byte × State :=
  match s.rngSupply with
  | b :: rest => (b, { s with rngSupply := rest, rngDrawn := s.rngDrawn + 1 })
  | [] => (Config.randomByte s.rngDrawn, { s with rngDrawn := s.rngDrawn + 1 })

/-! ### Outputs of a step (30_encoding.md R114) -/

/-- `output display_changed <- 0; output waiting <- 0`. -/
def State.clearOutputs (s : State) : State := { s with displayChanged := false, waiting := false }

/-- `output display_changed <- 1` (44_display.md R296). -/
def State.reportDisplay (s : State) : State := { s with displayChanged := true }

/-- `output waiting <- 1` (45_keypad_timers.md R322). -/
def State.reportWaiting (s : State) : State := { s with waiting := true }

end Sys2Proof.Machine
end

