-- ==== Sys2Proof/Machine/Flags.lean ====
section
/-! DEFINITION. Every flag computation (10_state.md R50) and the order in which a result and its flag are written
(42_alu.md R201). -/

namespace Sys2Proof.Machine

/-- A flag as VF holds it: 1 or 0. -/
def flagByte (b : Bool) : Byte := if b then 1 else 0

/-- The carry of a + b out of bit 7 (42_alu.md R212). -/
def carryFlag (a b : Byte) : Byte := flagByte (decide (a.toNat + b.toNat > 255))

/-- No borrow in minuend - subtrahend (42_alu.md R213, R216). -/
def noBorrowFlag (minuend subtrahend : Byte) : Byte := flagByte (decide (minuend.toNat ≥ subtrahend.toNat))

/-- The bit SHR shifts out, bit 0 (42_alu.md R215). -/
def lowBitFlag (b : Byte) : Byte := b &&& 0x01

/-- The bit SHL shifts out, bit 7 (42_alu.md R218). -/
def highBitFlag (b : Byte) : Byte := b >>> 7

/-- The collision flag of DRW (44_display.md R294). -/
def collisionFlag (collided : Bool) : Byte := flagByte collided

/-- `V[x] <- result`, then `V[0xF] <- flag`: with x = F the flag overwrites the result (42_alu.md R201). -/
def State.writeWithFlag (s : State) (x : Nibble) (result flag : Byte) : State :=
  (s.writeV x result).writeV 0xF flag

end Sys2Proof.Machine
end

