-- ==== Sys2Proof/Machine/Operands.lean ====
section
/-! DEFINITION. The operand forms: zero-extended immediates, addresses formed from I, the shift source, glyph addresses,
BCD digits, the register block of a bulk copy, key indices, and sprite geometry. -/

namespace Sys2Proof.Machine

/-- `zext_16(nnn)` (30_encoding.md R115). -/
def zextAddr (nnn : Addr12) : Word := nnn.setWidth 16

/-- `zext_16` of a register's value (30_encoding.md R115). -/
def zextByte (b : Byte) : Word := b.setWidth 16

/-- The effective address of the k-th byte accessed through I: I + k, an unbounded natural (43_index_memory.md R256). -/
def State.effectiveAddress (s : State) (k : Nat) : Nat := s.i.toNat + k

/-- The target of JP_V0, with no wrap and no mask (41_control_flow.md R167). -/
def State.indexedTarget (s : State) (nnn : Addr12) : Word := zextAddr nnn + zextByte (s.readV 0x0)

/-- `shift_src`: VY under LEGACY, VX under MODERN (42_alu.md R214). -/
def State.shiftOperand (s : State) (x y : Nibble) : Byte :=
  match s.config.shiftSource with
  | .legacy => s.readV y
  | .modern => s.readV x

/-- `FONT_BASE + 5 * (b & 0x0F)` (43_index_memory.md R252). -/
def glyphAddress (cfg : Config) (b : Byte) : Word :=
  BitVec.ofNat 16 (cfg.fontBase.val + 5 * (b &&& 0x0F).toNat)

/-- The hundreds, tens and ones of a byte (43_index_memory.md R253). -/
def bcdDigits (b : Byte) : List Byte :=
  [BitVec.ofNat 8 (b.toNat / 100), BitVec.ofNat 8 (b.toNat / 10 % 10), BitVec.ofNat 8 (b.toNat % 10)]

/-- V0 to VX in order (43_index_memory.md R254). -/
def State.registerBlock (s : State) (x : Nibble) : List Byte :=
  (List.range (x.toNat + 1)).map fun k => s.readV (BitVec.ofNat 4 k)

/-- The key VX names, or KeyIndexOutOfRange for a value above 0x0F (45_keypad_timers.md R320, R321). -/
def State.keyOperand (s : State) (x : Nibble) : Checked Nibble :=
  if s.readV x > 0x0F then .error (.keyIndexOutOfRange (s.readV x)) else .ok ((s.readV x).setWidth 4)

/-- The sprite's start column, VX mod 64 (44_display.md R291). -/
def State.startColumn (s : State) (x : Nibble) : Nat := (s.readV x).toNat % 64

/-- The sprite's start row, VY mod 32 (44_display.md R291). -/
def State.startRow (s : State) (y : Nibble) : Nat := (s.readV y).toNat % 32

/-- `Target(X, Y)`: where a drawn bit lands, if anywhere (44_display.md R293). -/
def spriteTarget (edge : SpriteEdge) (column row : Nat) : Option (Fin 64 × Fin 32) :=
  match edge with
  | .wrap => some (⟨column % 64, Nat.mod_lt _ (by decide)⟩, ⟨row % 32, Nat.mod_lt _ (by decide)⟩)
  | .clip => if h : column < 64 ∧ row < 32 then some (⟨column, h.1⟩, ⟨row, h.2⟩) else none

/-- The columns of a sprite row's 1 bits: bit 7 is column 0 (44_display.md R291). -/
def rowColumns (row : Byte) : List Nat := (List.range 8).filter fun c => row.getLsbD (7 - c)

/-- The (column, row) of every 1 bit of a sprite whose first row is numbered `r` (44_display.md R291). -/
def spriteBits (r : Nat) : List Byte → List (Nat × Nat)
  | [] => []
  | row :: rows => (rowColumns row).map (fun c => (c, r)) ++ spriteBits (r + 1) rows

/-- Where the sprite's 1 bits are drawn when it starts at (x0, y0) (44_display.md R292). -/
def spriteTargets (edge : SpriteEdge) (x0 y0 : Nat) (rows : List Byte) : List (Fin 64 × Fin 32) :=
  (spriteBits 0 rows).filterMap fun bit => spriteTarget edge (x0 + bit.1) (y0 + bit.2)

end Sys2Proof.Machine
end

