-- ==== Sys2Proof/Machine/Alu.lean ====
section
/-! DEFINITION. Immediate, move, logic, arithmetic, shift and random instructions (42_alu.md). Results are modulo 256
(R200), which is 8-bit bit-vector arithmetic; none of these halts. -/

namespace Sys2Proof.Machine

/-- LD_VX_KK (R202). -/
def execLdVxKk (x : Nibble) (kk : Byte) (s : State) : StepResult :=
  .next (s.writeV x kk)

/-- ADD_VX_KK (R203): no flag. -/
def execAddVxKk (x : Nibble) (kk : Byte) (s : State) : StepResult :=
  .next (s.writeV x (s.readV x + kk))

/-- LD_VX_VY (R204). -/
def execLdVxVy (x y : Nibble) (s : State) : StepResult :=
  .next (s.writeV x (s.readV y))

/-- OR_VX_VY (R209): no flag. -/
def execOrVxVy (x y : Nibble) (s : State) : StepResult :=
  .next (s.writeV x (s.readV x ||| s.readV y))

/-- AND_VX_VY (R210): no flag. -/
def execAndVxVy (x y : Nibble) (s : State) : StepResult :=
  .next (s.writeV x (s.readV x &&& s.readV y))

/-- XOR_VX_VY (R211): no flag. -/
def execXorVxVy (x y : Nibble) (s : State) : StepResult :=
  .next (s.writeV x (s.readV x ^^^ s.readV y))

/-- ADD_VX_VY (R212): VF is the carry. -/
def execAddVxVy (x y : Nibble) (s : State) : StepResult :=
  .next (s.writeWithFlag x (s.readV x + s.readV y) (carryFlag (s.readV x) (s.readV y)))

/-- SUB_VX_VY (R213): VX - VY, VF is no borrow. -/
def execSubVxVy (x y : Nibble) (s : State) : StepResult :=
  .next (s.writeWithFlag x (s.readV x - s.readV y) (noBorrowFlag (s.readV x) (s.readV y)))

/-- SUBN_VX_VY (R216): VY - VX, VF is no borrow. -/
def execSubnVxVy (x y : Nibble) (s : State) : StepResult :=
  .next (s.writeWithFlag x (s.readV y - s.readV x) (noBorrowFlag (s.readV y) (s.readV x)))

/-- SHR_VX_VY (R215): the shift source right by one, VF is its bit 0. -/
def execShrVxVy (x y : Nibble) (s : State) : StepResult :=
  .next (s.writeWithFlag x (s.shiftOperand x y >>> 1) (lowBitFlag (s.shiftOperand x y)))

/-- SHL_VX_VY (R218): the shift source left by one, VF is its bit 7. -/
def execShlVxVy (x y : Nibble) (s : State) : StepResult :=
  .next (s.writeWithFlag x (s.shiftOperand x y <<< 1) (highBitFlag (s.shiftOperand x y)))

/-- RND (R219): one byte is drawn even when kk = 0. -/
def execRnd (x : Nibble) (kk : Byte) (s : State) : StepResult :=
  .next (s.drawByte.2.writeV x (s.drawByte.1 &&& kk))

end Sys2Proof.Machine
end

