-- ==== Sys2Proof/Machine/ControlFlow.lean ====
section
/-! DEFINITION. Jumps, calls, returns and skips (41_control_flow.md). `s.pc` is the instruction's address + 2, as the
fetch left it (10_state.md R33). -/

namespace Sys2Proof.Machine

/-- RET (R160): StackUnderflow on an empty stack, else PC is the popped address, unchecked. -/
def execRet (s : State) : StepResult :=
  completeWith s s.pop fun popped => popped.2.jump popped.1

/-- JP nnn (R161). -/
def execJp (nnn : Addr12) (s : State) : StepResult :=
  .next (s.jump (zextAddr nnn))

/-- CALL nnn (R162): StackOverflow with 16 entries, else the return address PC is pushed. -/
def execCall (nnn : Addr12) (s : State) : StepResult :=
  completeWith s (s.push s.pc) fun pushed => pushed.jump (zextAddr nnn)

/-- SE_VX_KK (R163). -/
def execSeVxKk (x : Nibble) (kk : Byte) (s : State) : StepResult :=
  .next (s.skipIf (s.readV x == kk))

/-- SNE_VX_KK (R164). -/
def execSneVxKk (x : Nibble) (kk : Byte) (s : State) : StepResult :=
  .next (s.skipIf (s.readV x != kk))

/-- SE_VX_VY (R165). -/
def execSeVxVy (x y : Nibble) (s : State) : StepResult :=
  .next (s.skipIf (s.readV x == s.readV y))

/-- SNE_VX_VY (R166). -/
def execSneVxVy (x y : Nibble) (s : State) : StepResult :=
  .next (s.skipIf (s.readV x != s.readV y))

/-- JP_V0 nnn (R167): the base register is always V0. -/
def execJpV0 (nnn : Addr12) (s : State) : StepResult :=
  .next (s.jump (s.indexedTarget nnn))

end Sys2Proof.Machine
end

