-- ==== Sys2Proof/Machine/Display.lean ====
section
/-! DEFINITION. The framebuffer pixel writer: CLS and DRW (44_display.md). -/

namespace Sys2Proof.Machine

/-- CLS (R290): every pixel 0, display_changed reported even when none changes. -/
def execCls (s : State) : StepResult :=
  .next { s with framebuffer := Framebuffer.clear }.reportDisplay

/-- The framebuffer and the collision that drawing the sprite rows leaves (R292). -/
def State.drawSprite (s : State) (x y : Nibble) (rows : List Byte) : Framebuffer × Bool :=
  drawPixels (spriteTargets s.config.spriteEdge (s.startColumn x) (s.startRow y) rows) (s.framebuffer, false)

/-- The writes of DRW: the framebuffer, then VF, then the output (R292). -/
def State.afterDraw (s : State) (drawn : Framebuffer × Bool) : State :=
  ({ s with framebuffer := drawn.1 }.writeV 0xF (collisionFlag drawn.2)).reportDisplay

/-- DRW (R292): MemoryOutOfBounds with nothing written, else the sprite of n rows at I is drawn. With n = 0 no memory is
read and VF is 0 (R295). -/
def execDrw (x y n : Nibble) (s : State) : StepResult :=
  completeWith s (s.memReadRange (s.effectiveAddress 0) n.toNat) fun rows => s.afterDraw (s.drawSprite x y rows)

end Sys2Proof.Machine
end

