-- ==== Sys2Proof/Machine/IndexMemory.lean ====
section
/-! DEFINITION. Setting I, and the transfers between registers and memory through I (43_index_memory.md). I is unchanged
by the transfers (R256). -/

namespace Sys2Proof.Machine

/-- LD_I nnn (R250). -/
def execLdI (nnn : Addr12) (s : State) : StepResult :=
  .next { s with i := zextAddr nnn }

/-- ADD_I_VX (R251): modulo 65536, no flag, no bounds check. -/
def execAddIVx (x : Nibble) (s : State) : StepResult :=
  .next { s with i := s.i + zextByte (s.readV x) }

/-- LD_F_VX (R252): the glyph of VX's low nibble; memory is not read. -/
def execLdFVx (x : Nibble) (s : State) : StepResult :=
  .next { s with i := glyphAddress s.config (s.readV x) }

/-- LD_B_VX (R253): the three BCD digits at I, I+1, I+2, or MemoryOutOfBounds with nothing written. -/
def execLdBVx (x : Nibble) (s : State) : StepResult :=
  completeWith s (s.memWriteRange (s.effectiveAddress 0) (bcdDigits (s.readV x))) id

/-- LD_I_VX (R254): V0 to VX stored from I, or MemoryOutOfBounds with nothing written. -/
def execLdIVx (x : Nibble) (s : State) : StepResult :=
  completeWith s (s.memWriteRange (s.effectiveAddress 0) (s.registerBlock x)) id

/-- LD_VX_I (R255): V0 to VX loaded from I, or MemoryOutOfBounds with no register written. -/
def execLdVxI (x : Nibble) (s : State) : StepResult :=
  completeWith s (s.memReadRange (s.effectiveAddress 0) (x.toNat + 1)) fun bytes => s.writeVsFrom 0 bytes

end Sys2Proof.Machine
end

