-- ==== Sys2Proof/Machine/KeypadTimers.lean ====
section
/-! DEFINITION. Key tests, the key wait, and the reads and writes of the timers (45_keypad_timers.md). -/

namespace Sys2Proof.Machine

/-- SKP (R320): KeyIndexOutOfRange for VX above 0x0F, else skip when the key is pressed. -/
def execSkp (x : Nibble) (s : State) : StepResult :=
  completeWith s (s.keyOperand x) fun k => s.skipIf (s.key k)

/-- SKNP (R321): KeyIndexOutOfRange for VX above 0x0F, else skip when the key is not pressed. -/
def execSknp (x : Nibble) (s : State) : StepResult :=
  completeWith s (s.keyOperand x) fun k => s.skipIf (!s.key k)

/-- LD_VX_KEY (R322): the smallest pressed key into VX; with none, PC goes back to this instruction and `waiting` is
reported. -/
def execLdVxKey (x : Nibble) (s : State) : StepResult :=
  match s.lowestKey with
  | some k => .next (s.writeV x (k.setWidth 8))
  | none => .next (s.jump (s.pc - 2)).reportWaiting

/-- LD_VX_DT (R323). -/
def execLdVxDt (x : Nibble) (s : State) : StepResult :=
  .next (s.writeV x s.dt)

/-- LD_DT_VX (R324). -/
def execLdDtVx (x : Nibble) (s : State) : StepResult :=
  .next { s with dt := s.readV x }

/-- LD_ST_VX (R325). -/
def execLdStVx (x : Nibble) (s : State) : StepResult :=
  .next { s with st := s.readV x }

end Sys2Proof.Machine
end

