-- ==== Sys2Proof/Syntax.lean ====
section
/-! DEFINITION. The 34 instructions of 30_encoding.md R116, one constructor per row of the opcode map in the map's
order. An operand has exactly the width of its field (R111), so every term is an instruction of the map. -/

namespace Sys2Proof

/-- An instruction with its operand fields, named as in 00_scope.md R16. -/
inductive Instr where
  | cls
  | ret
  | jp (nnn : Addr12)
  | call (nnn : Addr12)
  | seVxKk (x : Nibble) (kk : Byte)
  | sneVxKk (x : Nibble) (kk : Byte)
  | seVxVy (x y : Nibble)
  | ldVxKk (x : Nibble) (kk : Byte)
  | addVxKk (x : Nibble) (kk : Byte)
  | ldVxVy (x y : Nibble)
  | orVxVy (x y : Nibble)
  | andVxVy (x y : Nibble)
  | xorVxVy (x y : Nibble)
  | addVxVy (x y : Nibble)
  | subVxVy (x y : Nibble)
  | shrVxVy (x y : Nibble)
  | subnVxVy (x y : Nibble)
  | shlVxVy (x y : Nibble)
  | sneVxVy (x y : Nibble)
  | ldI (nnn : Addr12)
  | jpV0 (nnn : Addr12)
  | rnd (x : Nibble) (kk : Byte)
  | drw (x y n : Nibble)
  | skp (x : Nibble)
  | sknp (x : Nibble)
  | ldVxDt (x : Nibble)
  | ldVxKey (x : Nibble)
  | ldDtVx (x : Nibble)
  | ldStVx (x : Nibble)
  | addIVx (x : Nibble)
  | ldFVx (x : Nibble)
  | ldBVx (x : Nibble)
  | ldIVx (x : Nibble)
  | ldVxI (x : Nibble)
deriving DecidableEq, Repr

end Sys2Proof
end

