-- ==== Sys2Proof/WellFormed.lean ====
section
/-! DEFINITION. Which 16-bit words are instructions: the illegal words of 30_encoding.md R118, written from that rule's
own list and not from the decoder. An `Instr` term needs no check (its operands have their fields' widths); what can be
ill-formed is a word. -/

namespace Sys2Proof

/-- 0x0nnn is legal for 0x00E0 and 0x00EE only (R118). -/
def legalZeroFamily (w : Nat) : Bool :=
  w == 0x00E0 || w == 0x00EE

/-- 0x5xyn and 0x9xyn are legal for n = 0 only (R118). -/
def legalRegisterSkip (w : Nat) : Bool :=
  w % 16 == 0

/-- 0x8xyn is illegal for n in 8, 9, A, B, C, D, F (R118). -/
def legalAluFamily (w : Nat) : Bool :=
  !([0x8, 0x9, 0xA, 0xB, 0xC, 0xD, 0xF].contains (w % 16))

/-- 0xExkk is legal for kk in 9E, A1 only (R118). -/
def legalKeyFamily (w : Nat) : Bool :=
  [0x9E, 0xA1].contains (w % 256)

/-- 0xFxkk is legal for the nine kk of R118 only. -/
def legalMiscFamily (w : Nat) : Bool :=
  [0x07, 0x0A, 0x15, 0x18, 0x1E, 0x29, 0x33, 0x55, 0x65].contains (w % 256)

/-- Whether an opcode is one of the 34 instructions, by its leading nibble: R118's six families that hold illegal words,
and the ten leading nibbles that hold none. -/
def legalWord (w : Word) : Bool :=
  let k := w.toNat
  if k / 4096 == 0x0 then legalZeroFamily k
  else if k / 4096 == 0x5 || k / 4096 == 0x9 then legalRegisterSkip k
  else if k / 4096 == 0x8 then legalAluFamily k
  else if k / 4096 == 0xE then legalKeyFamily k
  else if k / 4096 == 0xF then legalMiscFamily k
  else true

end Sys2Proof
end

