-- ==== Sys2Proof/Decode.lean ====
section
/-! DEFINITION. The decoder of 30_encoding.md (R110, R111, R116, R117), the encoder written from the same map, the map
itself as data, and the byte order of an opcode (20_memory.md R85). -/

namespace Sys2Proof

/-! ### Fields of an opcode (30_encoding.md R111) -/

/-- The leading nibble, w[15:12]. -/
def fieldOp (w : Word) : Nibble := w.extractLsb' 12 4

/-- nnn = w[11:0]. -/
def fieldNnn (w : Word) : Addr12 := w.extractLsb' 0 12

/-- x = w[11:8]. -/
def fieldX (w : Word) : Nibble := w.extractLsb' 8 4

/-- kk = w[7:0]. -/
def fieldKk (w : Word) : Byte := w.extractLsb' 0 8

/-- y = w[7:4]. -/
def fieldY (w : Word) : Nibble := w.extractLsb' 4 4

/-- n = w[3:0]. -/
def fieldN (w : Word) : Nibble := w.extractLsb' 0 4

/-! ### Byte order (20_memory.md R85) -/

/-- The opcode of two bytes, the high byte first. -/
def wordOfBytes (hi lo : Byte) : Word := hi ++ lo

/-- The byte of an opcode at the lower address. -/
def highByte (w : Word) : Byte := w.extractLsb' 8 8

/-- The byte of an opcode at the higher address. -/
def lowByte (w : Word) : Byte := w.extractLsb' 0 8

/-! ### The decoder -/

/-- Why a decode answers no instruction. -/
inductive DecodeError where
  /-- The word matches no row of the opcode map: the `Unknown` of R117. -/
  | unknownOpcode (w : Word)
  /-- Fewer than the two bytes an opcode has (R110). The machine's fetch never meets it. -/
  | truncated (bytes : List Byte)
deriving DecidableEq, Repr

/-- The 0x8 family: n selects the operation (R116 rows 10 to 18). -/
def decodeAlu (w : Word) : Except DecodeError Instr :=
  let x := fieldX w
  let y := fieldY w
  if fieldN w = 0x0 then .ok (.ldVxVy x y)
  else if fieldN w = 0x1 then .ok (.orVxVy x y)
  else if fieldN w = 0x2 then .ok (.andVxVy x y)
  else if fieldN w = 0x3 then .ok (.xorVxVy x y)
  else if fieldN w = 0x4 then .ok (.addVxVy x y)
  else if fieldN w = 0x5 then .ok (.subVxVy x y)
  else if fieldN w = 0x6 then .ok (.shrVxVy x y)
  else if fieldN w = 0x7 then .ok (.subnVxVy x y)
  else if fieldN w = 0xE then .ok (.shlVxVy x y)
  else .error (.unknownOpcode w)

/-- The 0xE family: kk selects the key test (R116 rows 24, 25). -/
def decodeKey (w : Word) : Except DecodeError Instr :=
  if fieldKk w = 0x9E then .ok (.skp (fieldX w))
  else if fieldKk w = 0xA1 then .ok (.sknp (fieldX w))
  else .error (.unknownOpcode w)

/-- The 0xF family: kk selects the operation (R116 rows 26 to 34). -/
def decodeMisc (w : Word) : Except DecodeError Instr :=
  let x := fieldX w
  if fieldKk w = 0x07 then .ok (.ldVxDt x)
  else if fieldKk w = 0x0A then .ok (.ldVxKey x)
  else if fieldKk w = 0x15 then .ok (.ldDtVx x)
  else if fieldKk w = 0x18 then .ok (.ldStVx x)
  else if fieldKk w = 0x1E then .ok (.addIVx x)
  else if fieldKk w = 0x29 then .ok (.ldFVx x)
  else if fieldKk w = 0x33 then .ok (.ldBVx x)
  else if fieldKk w = 0x55 then .ok (.ldIVx x)
  else if fieldKk w = 0x65 then .ok (.ldVxI x)
  else .error (.unknownOpcode w)

/-- The decoder: a pure total function of the word alone (R117, R121). It "extracts the leading nibble and, depending
on it, further nibbles/bytes" (R111), and every fixed bit of a row must match. -/
def decodeWord (w : Word) : Except DecodeError Instr :=
  let x := fieldX w
  let y := fieldY w
  let kk := fieldKk w
  let nnn := fieldNnn w
  if fieldOp w = 0x0 then
    if w = 0x00E0 then .ok .cls else if w = 0x00EE then .ok .ret else .error (.unknownOpcode w)
  else if fieldOp w = 0x1 then .ok (.jp nnn)
  else if fieldOp w = 0x2 then .ok (.call nnn)
  else if fieldOp w = 0x3 then .ok (.seVxKk x kk)
  else if fieldOp w = 0x4 then .ok (.sneVxKk x kk)
  else if fieldOp w = 0x5 then if fieldN w = 0x0 then .ok (.seVxVy x y) else .error (.unknownOpcode w)
  else if fieldOp w = 0x6 then .ok (.ldVxKk x kk)
  else if fieldOp w = 0x7 then .ok (.addVxKk x kk)
  else if fieldOp w = 0x8 then decodeAlu w
  else if fieldOp w = 0x9 then if fieldN w = 0x0 then .ok (.sneVxVy x y) else .error (.unknownOpcode w)
  else if fieldOp w = 0xA then .ok (.ldI nnn)
  else if fieldOp w = 0xB then .ok (.jpV0 nnn)
  else if fieldOp w = 0xC then .ok (.rnd x kk)
  else if fieldOp w = 0xD then .ok (.drw x y (fieldN w))
  else if fieldOp w = 0xE then decodeKey w
  else decodeMisc w

/-- The decoder on a byte stream: one instruction and the bytes after it (R110: always two bytes). -/
def decodeBytes : List Byte → Except DecodeError (Instr × List Byte)
  | hi :: lo :: rest =>
    match decodeWord (wordOfBytes hi lo) with
    | .ok i => .ok (i, rest)
    | .error e => .error e
  | short => .error (.truncated short)

/-! ### The encoder -/

/-- The opcode of an instruction: the pattern column of R116 with the operand fields in their places (R111). -/
def encode : Instr → Word
  | .cls => 0x00E0
  | .ret => 0x00EE
  | .jp nnn => 0x1#4 ++ nnn
  | .call nnn => 0x2#4 ++ nnn
  | .seVxKk x kk => 0x3#4 ++ x ++ kk
  | .sneVxKk x kk => 0x4#4 ++ x ++ kk
  | .seVxVy x y => 0x5#4 ++ x ++ y ++ 0x0#4
  | .ldVxKk x kk => 0x6#4 ++ x ++ kk
  | .addVxKk x kk => 0x7#4 ++ x ++ kk
  | .ldVxVy x y => 0x8#4 ++ x ++ y ++ 0x0#4
  | .orVxVy x y => 0x8#4 ++ x ++ y ++ 0x1#4
  | .andVxVy x y => 0x8#4 ++ x ++ y ++ 0x2#4
  | .xorVxVy x y => 0x8#4 ++ x ++ y ++ 0x3#4
  | .addVxVy x y => 0x8#4 ++ x ++ y ++ 0x4#4
  | .subVxVy x y => 0x8#4 ++ x ++ y ++ 0x5#4
  | .shrVxVy x y => 0x8#4 ++ x ++ y ++ 0x6#4
  | .subnVxVy x y => 0x8#4 ++ x ++ y ++ 0x7#4
  | .shlVxVy x y => 0x8#4 ++ x ++ y ++ 0xE#4
  | .sneVxVy x y => 0x9#4 ++ x ++ y ++ 0x0#4
  | .ldI nnn => 0xA#4 ++ nnn
  | .jpV0 nnn => 0xB#4 ++ nnn
  | .rnd x kk => 0xC#4 ++ x ++ kk
  | .drw x y n => 0xD#4 ++ x ++ y ++ n
  | .skp x => 0xE#4 ++ x ++ 0x9E#8
  | .sknp x => 0xE#4 ++ x ++ 0xA1#8
  | .ldVxDt x => 0xF#4 ++ x ++ 0x07#8
  | .ldVxKey x => 0xF#4 ++ x ++ 0x0A#8
  | .ldDtVx x => 0xF#4 ++ x ++ 0x15#8
  | .ldStVx x => 0xF#4 ++ x ++ 0x18#8
  | .addIVx x => 0xF#4 ++ x ++ 0x1E#8
  | .ldFVx x => 0xF#4 ++ x ++ 0x29#8
  | .ldBVx x => 0xF#4 ++ x ++ 0x33#8
  | .ldIVx x => 0xF#4 ++ x ++ 0x55#8
  | .ldVxI x => 0xF#4 ++ x ++ 0x65#8

/-- The two bytes of an instruction in memory order (20_memory.md R85). -/
def encodeBytes (i : Instr) : List Byte := [highByte (encode i), lowByte (encode i)]

/-! ### The opcode map as data (30_encoding.md R116) -/

/-- One row of the map: a word selects it when `w &&& mask = pattern`, and `build` reads the row's fields. -/
structure OpcodeRow where
  mnemonic : String
  pattern  : Word
  mask     : Word
  build    : Word → Instr

/-- Rows 1 to 9 of R116. -/
def opcodeRowsLow : List OpcodeRow :=
  [⟨"CLS", 0x00E0, 0xFFFF, fun _ => .cls⟩,
   ⟨"RET", 0x00EE, 0xFFFF, fun _ => .ret⟩,
   ⟨"JP", 0x1000, 0xF000, fun w => .jp (fieldNnn w)⟩,
   ⟨"CALL", 0x2000, 0xF000, fun w => .call (fieldNnn w)⟩,
   ⟨"SE_VX_KK", 0x3000, 0xF000, fun w => .seVxKk (fieldX w) (fieldKk w)⟩,
   ⟨"SNE_VX_KK", 0x4000, 0xF000, fun w => .sneVxKk (fieldX w) (fieldKk w)⟩,
   ⟨"SE_VX_VY", 0x5000, 0xF00F, fun w => .seVxVy (fieldX w) (fieldY w)⟩,
   ⟨"LD_VX_KK", 0x6000, 0xF000, fun w => .ldVxKk (fieldX w) (fieldKk w)⟩,
   ⟨"ADD_VX_KK", 0x7000, 0xF000, fun w => .addVxKk (fieldX w) (fieldKk w)⟩]

/-- Rows 10 to 18 of R116. -/
def opcodeRowsAlu : List OpcodeRow :=
  [⟨"LD_VX_VY", 0x8000, 0xF00F, fun w => .ldVxVy (fieldX w) (fieldY w)⟩,
   ⟨"OR_VX_VY", 0x8001, 0xF00F, fun w => .orVxVy (fieldX w) (fieldY w)⟩,
   ⟨"AND_VX_VY", 0x8002, 0xF00F, fun w => .andVxVy (fieldX w) (fieldY w)⟩,
   ⟨"XOR_VX_VY", 0x8003, 0xF00F, fun w => .xorVxVy (fieldX w) (fieldY w)⟩,
   ⟨"ADD_VX_VY", 0x8004, 0xF00F, fun w => .addVxVy (fieldX w) (fieldY w)⟩,
   ⟨"SUB_VX_VY", 0x8005, 0xF00F, fun w => .subVxVy (fieldX w) (fieldY w)⟩,
   ⟨"SHR_VX_VY", 0x8006, 0xF00F, fun w => .shrVxVy (fieldX w) (fieldY w)⟩,
   ⟨"SUBN_VX_VY", 0x8007, 0xF00F, fun w => .subnVxVy (fieldX w) (fieldY w)⟩,
   ⟨"SHL_VX_VY", 0x800E, 0xF00F, fun w => .shlVxVy (fieldX w) (fieldY w)⟩]

/-- Rows 19 to 25 of R116. -/
def opcodeRowsMiddle : List OpcodeRow :=
  [⟨"SNE_VX_VY", 0x9000, 0xF00F, fun w => .sneVxVy (fieldX w) (fieldY w)⟩,
   ⟨"LD_I", 0xA000, 0xF000, fun w => .ldI (fieldNnn w)⟩,
   ⟨"JP_V0", 0xB000, 0xF000, fun w => .jpV0 (fieldNnn w)⟩,
   ⟨"RND", 0xC000, 0xF000, fun w => .rnd (fieldX w) (fieldKk w)⟩,
   ⟨"DRW", 0xD000, 0xF000, fun w => .drw (fieldX w) (fieldY w) (fieldN w)⟩,
   ⟨"SKP", 0xE09E, 0xF0FF, fun w => .skp (fieldX w)⟩,
   ⟨"SKNP", 0xE0A1, 0xF0FF, fun w => .sknp (fieldX w)⟩]

/-- Rows 26 to 34 of R116. -/
def opcodeRowsMisc : List OpcodeRow :=
  [⟨"LD_VX_DT", 0xF007, 0xF0FF, fun w => .ldVxDt (fieldX w)⟩,
   ⟨"LD_VX_KEY", 0xF00A, 0xF0FF, fun w => .ldVxKey (fieldX w)⟩,
   ⟨"LD_DT_VX", 0xF015, 0xF0FF, fun w => .ldDtVx (fieldX w)⟩,
   ⟨"LD_ST_VX", 0xF018, 0xF0FF, fun w => .ldStVx (fieldX w)⟩,
   ⟨"ADD_I_VX", 0xF01E, 0xF0FF, fun w => .addIVx (fieldX w)⟩,
   ⟨"LD_F_VX", 0xF029, 0xF0FF, fun w => .ldFVx (fieldX w)⟩,
   ⟨"LD_B_VX", 0xF033, 0xF0FF, fun w => .ldBVx (fieldX w)⟩,
   ⟨"LD_I_VX", 0xF055, 0xF0FF, fun w => .ldIVx (fieldX w)⟩,
   ⟨"LD_VX_I", 0xF065, 0xF0FF, fun w => .ldVxI (fieldX w)⟩]

/-- The complete opcode map, in the order of R116. -/
def opcodeMap : List OpcodeRow :=
  opcodeRowsLow ++ opcodeRowsAlu ++ opcodeRowsMiddle ++ opcodeRowsMisc

/-- Whether a word selects a row (R116). -/
def OpcodeRow.selects (r : OpcodeRow) (w : Word) : Bool := w &&& r.mask == r.pattern

/-- R117's own pseudocode: the first row that the word selects, else Unknown. `decodeWord` computes the same. -/
def decodeByMap (w : Word) : Except DecodeError Instr :=
  match opcodeMap.find? (·.selects w) with
  | some r => .ok (r.build w)
  | none => .error (.unknownOpcode w)

/-! ### The word as the opcode table numbers it -/

/-- The opcode in the low `nbits` bits of `w`; an instruction is one 16-bit word (R110). -/
def tableWord (nbits w : Nat) : Word := BitVec.ofNat 16 (w % 2 ^ nbits)

end Sys2Proof

/-- The instruction the decoder reads from the bytes of the table's word, laid out as the hardware stores them. -/
def Sys2Proof.decodeTableWord (nbits w : Nat) : Option Sys2Proof.Instr :=
  let opcode := Sys2Proof.tableWord nbits w
  match Sys2Proof.decodeBytes [Sys2Proof.highByte opcode, Sys2Proof.lowByte opcode] with
  | .ok (i, _) => some i
  | .error _ => none
end

