-- ==== Sys2Proof/Machine/Fetch.lean ====
section
/-! DEFINITION. The instruction cycle up to the dispatch: fetch, decode, and what a step does when it executes nothing
(30_encoding.md R112, R113, R114). -/

namespace Sys2Proof.Machine

/-- Fetch (R112): the two bytes at PC, high byte first, then the alignment check, then PC + 2. The order of the checks
is the priority of 60_exceptions.md R353. -/
def fetch (s : State) : Checked (Word × State) :=
  match s.memRead s.pc.toNat with
  | .error r => .error r
  | .ok hi =>
    match s.memRead (s.pc.toNat + 1) with
    | .error r => .error r
    | .ok lo =>
      if s.config.pcAlignCheck && s.pc.getLsbD 0 then .error (.misalignedFetch s.pc)
      else .ok (wordOfBytes hi lo, s.jump (s.pc + 2))

/-- What a step has come to when it reaches execution. -/
inductive Issued where
  /-- No instruction executes: the block is halted, or the fetch or the decode halts it. -/
  | stays (t : State)
  /-- The instruction executes in the state the fetch left. -/
  | executes (i : Instr) (t : State)
deriving DecidableEq, Repr

/-- A step before its execution (R114): the outputs are cleared, a halted block does nothing else (60_exceptions.md
R358), a halt at fetch leaves PC, and an unknown opcode halts after the fetch (R113; 60_exceptions.md R356). -/
def issue (s : State) : Issued :=
  match s.runState with
  | .halted _ => .stays s.clearOutputs
  | .running =>
    match fetch s.clearOutputs with
    | .error r => .stays (s.clearOutputs.halt r)
    | .ok (w, t) =>
      match decodeWord w with
      | .error _ => .stays (t.halt (.invalidOpcode w))
      | .ok i => .executes i t

/-- Whether a fetch at this PC halts nothing (R112). -/
def fetchable (s : State) : Bool :=
  decide (s.pc.toNat + 1 < memSize) && !(s.config.pcAlignCheck && s.pc.getLsbD 0)

/-- Make the very next step fetch and run the table's word: the block runs, PC goes to the ROM load address when no
fetch is possible where it is, and the two bytes are stored at PC (log 11). -/
def placeForFetch (s : State) (nbits w : Nat) : State :=
  let opcode := tableWord nbits w
  let pc := if fetchable s then s.pc else BitVec.ofNat 16 romBase
  { s with runState := .running, pc := pc }.setBytes pc.toNat [highByte opcode, lowByte opcode]

end Sys2Proof.Machine
end

