-- ==== Sys2Proof/Machine/Step.lean ====
section
/-! DEFINITION. The `step` event (10_state.md R61; 30_encoding.md R114): one fetch, decode and execute. -/

namespace Sys2Proof.Machine

/-- One step of the block. -/
def step (s : State) : Host.Outcome State Fault Refusal :=
  match issue s with
  | .stays t => .next t
  | .executes i t => exec i t

/-- `s` with the opcode-table word stored where the next step fetches. -/
def State.withFetchWord (s : State) (nbits w : Nat) : State := placeForFetch s nbits w

end Sys2Proof.Machine
end

