-- ==== Sys2Proof/Machine/Events.lean ====
section
/-! DEFINITION. The host's interface: the events beside `step` (10_state.md R60 to R65), the outputs the host reads
(R66 to R68), and a run as a list of events in the host's order (log 8). -/

namespace Sys2Proof.Machine

/-! ### Reset and ROM load (70_reset_and_hazards.md) -/

/-- MAX_ROM (00_scope.md R9). -/
def maxRom : Nat := memSize - romBase

/-- `load_rom` (R391): the whole ROM from 0x200, or RomTooLarge with no byte copied (R392). -/
def State.loadRom (s : State) (rom : List Byte) : State :=
  if rom.length > maxRom then s.halt (.romTooLarge rom.length) else s.setBytes romBase rom

/-- `reset(rom)` (R390): every piece of the block's state is re-initialised. The static inputs stay (R393), and so does
the RNG port, which belongs to the host (10_state.md R64; log 7). -/
def State.resetWith (s : State) (rom : List Byte) : State :=
  { State.reset with config := s.config, rngSupply := s.rngSupply, rngDrawn := s.rngDrawn }.loadRom rom

/-! ### Timer decrement unit (60_exceptions.md R370, R372) -/

/-- A timer after one decrement: never below zero. -/
def decremented (timer : Byte) : Byte := if timer > 0 then timer - 1 else timer

/-- `tick`: both timers count down in Running state, and nothing changes in Halted state. -/
def State.tick (s : State) : State :=
  match s.runState with
  | .running => { s with dt := decremented s.dt, st := decremented s.st }
  | .halted _ => s

/-! ### Outputs the host reads -/

/-- `get_pixel(x, y)` (10_state.md R66). -/
def State.getPixel (s : State) (x : Fin 64) (y : Fin 32) : Bool := Framebuffer.pixel s.framebuffer (x, y)

/-- `sound_active` (10_state.md R67). -/
def State.soundActive (s : State) : Bool := s.st != 0

/-- The code of a halt reason (60_exceptions.md R351). -/
def HaltReason.code : HaltReason → Nat
  | .invalidOpcode _ => 1
  | .memoryOutOfBounds _ => 2
  | .stackOverflow => 3
  | .stackUnderflow => 4
  | .romTooLarge _ => 5
  | .misalignedFetch _ => 6
  | .keyIndexOutOfRange _ => 7

/-- The information recorded with a halt reason (60_exceptions.md R351). -/
def HaltReason.info : HaltReason → Option Nat
  | .invalidOpcode w => some w.toNat
  | .memoryOutOfBounds a => some a
  | .stackOverflow => none
  | .stackUnderflow => none
  | .romTooLarge n => some n
  | .misalignedFetch pc => some pc.toNat
  | .keyIndexOutOfRange b => some b.toNat

/-- The code of `run_state`: 0 while Running (10_state.md R68; 60_exceptions.md R351). -/
def RunState.code : RunState → Nat
  | .running => 0
  | .halted r => r.code

/-! ### Events -/

/-- The host's input events (10_state.md R60). -/
inductive HostEvent where
  | reset (rom : List Byte)
  | step
  | tick
  | setKey (k : Nibble) (pressed : Bool)
deriving DecidableEq, Repr

/-- One event, one atomic transaction (10_state.md R60). `set_key` is accepted in both run states (R65). -/
def handle (e : HostEvent) (s : State) : StepResult :=
  match e with
  | .reset rom => .next (s.resetWith rom)
  | .step => step s
  | .tick => .next s.tick
  | .setKey k pressed => .next (s.withKey k pressed)

/-- A run: the events in the host's order, each complete before the next begins (10_state.md R60). -/
def runEvents : List HostEvent → State → StepResult
  | [], s => .next s
  | e :: rest, s =>
    match handle e s with
    | .next t => runEvents rest t
    | .fault f => .fault f
    | .refused r => .refused r

end Sys2Proof.Machine
end

