-- ==== Sys2Proof/Safety.lean ====
section
/-! DEFINITION. What a good state and a safe step are, and the words the statements use for what an instruction may
change. -/

namespace Sys2Proof.Machine

/-! ### Good states -/

/-- Memory is in its canonical form, for the reset image of the state's configuration. -/
abbrev State.MemoryWf (s : State) : Prop := Memory.wf s.config s.memory = true

/-- PC and every stack entry stay in the range the rules can write: PC at most 0x10FE (10_state.md R35), a return
address at most 0x1000 (41_control_flow.md R162). -/
abbrev State.AddressesBounded (s : State) : Prop :=
  s.pc.toNat ≤ 0x10FE ∧ ∀ k : Fin 16, s.stack[k].toNat ≤ 0x1000

/-- The invariant every event keeps. -/
abbrev State.Inv (s : State) : Prop := s.MemoryWf ∧ s.AddressesBounded

/-- The block is Running. -/
abbrev State.IsRunning (s : State) : Prop := s.runState = .running

/-- PC lies where a fetch halts: a byte of the opcode is outside memory, or PC fails the alignment check
(30_encoding.md R112). -/
def State.FetchHalts (s : State) : Prop :=
  4096 ≤ s.pc.toNat + 1 ∨ (s.config.pcAlignCheck = true ∧ s.pc.toNat % 2 = 1)

/-- The opcode in memory at PC, high byte first (20_memory.md R85). -/
def State.opcodeAt (s : State) : Word := wordOfBytes (s.byteAt s.pc.toNat) (s.byteAt (s.pc.toNat + 1))

/-- A step from here executes the instruction: the block runs, the fetch does not halt, and the opcode at PC decodes to
it (30_encoding.md R114). -/
def State.Issues (s : State) (i : Instr) : Prop :=
  s.IsRunning ∧ ¬ s.FetchHalts ∧ decodeWord s.opcodeAt = .ok i

/-- The state in which that instruction executes: PC past the opcode, the outputs cleared (30_encoding.md R112, R114). -/
def State.fetched (s : State) : State := { s with pc := s.pc + 2, displayChanged := false, waiting := false }

/-! ### What an instruction may change -/

/-- Of the whole state, VX becomes `b` and nothing else changes. -/
def SetsRegister (s t : State) (x : Nibble) (b : Byte) : Prop :=
  t = { s with v := t.v } ∧ t.readV x = b ∧ ∀ r, r ≠ x → t.readV r = s.readV r

/-- Of the whole state, VX becomes the result and then VF the flag, and nothing else changes (42_alu.md R201). -/
def SetsRegisterAndFlag (s t : State) (x : Nibble) (result flag : Byte) : Prop :=
  t = { s with v := t.v } ∧ t.readV 0xF = flag ∧ (x ≠ 0xF → t.readV x = result) ∧
    ∀ r, r ≠ x → r ≠ 0xF → t.readV r = s.readV r

/-- Of the whole state, the `bytes` stand in memory from `base` and nothing else changes. -/
def StoresBytes (s t : State) (base : Nat) (bytes : List Byte) : Prop :=
  t = { s with memory := t.memory } ∧
    (∀ k (h : k < bytes.length), t.memRead (base + k) = .ok bytes[k]) ∧
    ∀ a, (a < base ∨ base + bytes.length ≤ a) → t.memRead a = s.memRead a

/-- The byte `b` at an address after `count` bytes are stored from `base`, byte `k` of them being `stored k`: the stored
byte inside the block, the byte of before outside it. -/
def StoredOrKept (s : State) (base count : Nat) (stored : Nat → Byte) (a : Nat) (b : Byte) : Prop :=
  (base ≤ a → a < base + count → b = stored (a - base)) ∧ ((a < base ∨ base + count ≤ a) → s.memRead a = .ok b)

/-- A fetch from `t` at any address `p` that does not halt reads the opcode of the bytes a store left there, each of the
two stored or kept on its own. -/
def FetchesWhatWasStored (s t : State) (base count : Nat) (stored : Nat → Byte) : Prop :=
  ∀ p : Word, ¬ (s.jump p).FetchHalts → ∃ (hi lo : Byte) (u : State),
    fetch (t.jump p) = .ok (wordOfBytes hi lo, u) ∧
    StoredOrKept s base count stored p.toNat hi ∧ StoredOrKept s base count stored (p.toNat + 1) lo

/-- The registers an instruction may write: the list of 10_state.md R32. -/
def MayWriteV : Instr → Nibble → Prop
  | .ldVxKk x _, r => r = x
  | .addVxKk x _, r => r = x
  | .ldVxVy x _, r => r = x
  | .orVxVy x _, r => r = x
  | .andVxVy x _, r => r = x
  | .xorVxVy x _, r => r = x
  | .rnd x _, r => r = x
  | .ldVxDt x, r => r = x
  | .ldVxKey x, r => r = x
  | .addVxVy x _, r => r = x ∨ r = 0xF
  | .subVxVy x _, r => r = x ∨ r = 0xF
  | .subnVxVy x _, r => r = x ∨ r = 0xF
  | .shrVxVy x _, r => r = x ∨ r = 0xF
  | .shlVxVy x _, r => r = x ∨ r = 0xF
  | .drw _ _ _, r => r = 0xF
  | .ldVxI x, r => r.toNat ≤ x.toNat
  | _, _ => False

/-- The addresses an instruction stores to in a state: I to I + 2 for LD_B_VX, I to I + x for LD_I_VX
(20_memory.md R84). -/
def StoresAt : Instr → State → Nat → Prop
  | .ldBVx _, s, a => s.i.toNat ≤ a ∧ a < s.i.toNat + 3
  | .ldIVx x, s, a => s.i.toNat ≤ a ∧ a ≤ s.i.toNat + x.toNat
  | _, _, _ => False

/-- The instruction's own check fails, with the reason it raises (60_exceptions.md R353). -/
def OwnHalt : Instr → State → HaltReason → Prop
  | .ret, s, r => s.sp.val = 0 ∧ r = .stackUnderflow
  | .call _, s, r => s.sp.val = 16 ∧ r = .stackOverflow
  | .skp x, s, r => 0x0F < (s.readV x).toNat ∧ r = .keyIndexOutOfRange (s.readV x)
  | .sknp x, s, r => 0x0F < (s.readV x).toNat ∧ r = .keyIndexOutOfRange (s.readV x)
  | .drw _ _ n, s, r =>
    0 < n.toNat ∧ 4096 < s.i.toNat + n.toNat ∧ r = .memoryOutOfBounds (max s.i.toNat 4096)
  | .ldBVx _, s, r => 4096 < s.i.toNat + 3 ∧ r = .memoryOutOfBounds (max s.i.toNat 4096)
  | .ldIVx x, s, r => 4096 < s.i.toNat + x.toNat + 1 ∧ r = .memoryOutOfBounds (max s.i.toNat 4096)
  | .ldVxI x, s, r => 4096 < s.i.toNat + x.toNat + 1 ∧ r = .memoryOutOfBounds (max s.i.toNat 4096)
  | _, _, _ => False

/-- The instructions that write PC (10_state.md R34): jumps, call, return, skips and the key wait. -/
def isControl : Instr → Bool
  | .ret | .jp _ | .call _ | .jpV0 _ => true
  | .seVxKk _ _ | .sneVxKk _ _ | .seVxVy _ _ | .sneVxVy _ _ | .skp _ | .sknp _ => true
  | .ldVxKey _ => true
  | _ => false

/-- The instructions whose target may be odd (10_state.md R36). -/
def isTransfer : Instr → Bool
  | .ret | .jp _ | .call _ | .jpV0 _ => true
  | _ => false

/-- The instructions that write the framebuffer (10_state.md R45). -/
def isDisplay : Instr → Bool
  | .cls | .drw _ _ _ => true
  | _ => false

/-! ### Sprites -/

/-- The sprite of `n` rows at I, started at (VX mod 64, VY mod 32), has a 1 bit that lands on the pixel
(44_display.md R291, R293): row r and column c with bit 7 - c of the byte at I + r set, at the start point plus (c, r),
reduced under WRAP and dropped past an edge under CLIP. -/
def SpriteCovers (s : State) (x y n : Nibble) (px : Fin 64) (py : Fin 32) : Prop :=
  ∃ r c : Nat, ∃ row : Byte, r < n.toNat ∧ c < 8 ∧ s.memRead (s.i.toNat + r) = .ok row ∧ row.getLsbD (7 - c) = true ∧
    match s.config.spriteEdge with
    | .wrap =>
      ((s.readV x).toNat % 64 + c) % 64 = px.val ∧ ((s.readV y).toNat % 32 + r) % 32 = py.val
    | .clip => (s.readV x).toNat % 64 + c = px.val ∧ (s.readV y).toNat % 32 + r = py.val

/-! ### Reset -/

/-- The byte that reset with a ROM leaves at an address (10_state.md R53; 20_memory.md R88). -/
def resetByte (cfg : Config) (rom : List Byte) (a : Nat) : Byte :=
  if h : 0x200 ≤ a ∧ a < 0x200 + rom.length then rom[a - 0x200]'(by omega)
  else if h : cfg.fontBase.val ≤ a ∧ a < cfg.fontBase.val + 80 then cfg.fontData[a - cfg.fontBase.val]'(by omega)
  else 0x00

end Sys2Proof.Machine
end

