-- ==== Sys2Proof/Certificates/Slice0/Obligations.lean ====
section
/-! DEFINITION. The statements for the provers. `s` is the state an instruction executes in: its PC is the instruction's
address + 2 (10_state.md R33). Numbers are written as the spec writes them. -/

open Sys2Proof Sys2Proof.Machine

/-! ### Encoding (30_encoding.md) -/

/-- Decoding an encoded instruction gives it back, as a word and as bytes before any others. -/
def Obligations.DecodeEncodeRoundTrip : Prop :=
  ∀ i : Instr, decodeWord (encode i) = .ok i ∧ ∀ rest, decodeBytes (encodeBytes i ++ rest) = .ok (i, rest)

/-- A word decodes to an instruction only if it is that instruction's encoding: no fixed bit is ignored.
(That every fixed bit must match is the spec's decision D4.) -/
def Obligations.DecodedWordIsItsEncoding : Prop :=
  ∀ (w : Word) (i : Instr), decodeWord w = .ok i → encode i = w

/-- The decoder by leading nibble computes what the search of the opcode map's masks and matches computes, on every
16-bit word. (That every fixed bit must match is the spec's decision D4.) -/
def Obligations.DecoderIsTheMapSearch : Prop :=
  ∀ w : Word, decodeWord w = decodeByMap w

/-- No two rows of the opcode map match the same opcode, and the map has its 34 rows. -/
def Obligations.OpcodeRowsNeverOverlap : Prop :=
  opcodeMap.length = 34 ∧ ∀ w : Word, (opcodeMap.filter fun r => r.selects w).length ≤ 1

/-- The words that decode to Unknown are exactly those of R118's lists, which the spec derives by enumeration; every
other word decodes to an instruction. -/
def Obligations.UnknownWordsAreTheIllegalOnes : Prop :=
  ∀ w : Word, (legalWord w = false ↔ decodeWord w = .error (.unknownOpcode w)) ∧
    (legalWord w = true ↔ ∃ i, decodeWord w = .ok i)

/-- A word of every format of the map, written out from its pattern, decodes to the instruction it stands for
(95_test_vectors.md L1-1, L1-2, D-1 to D-8). Only 0x1234 and 0x6A07 are the source's: the other patterns are the spec's
supply from general knowledge (its decision D3, log 13), and that 0x5121 is no instruction is its decision D4. -/
def Obligations.SampleWordsDecode : Prop :=
  decodeWord 0x00E0 = .ok .cls ∧ decodeWord 0x1234 = .ok (.jp 0x234) ∧ decodeWord 0x6A07 = .ok (.ldVxKk 0xA 0x07) ∧
  decodeWord 0x8AB4 = .ok (.addVxVy 0xA 0xB) ∧ decodeWord 0xD12F = .ok (.drw 0x1 0x2 0xF) ∧
  decodeWord 0xE1A1 = .ok (.sknp 0x1) ∧ decodeWord 0xF129 = .ok (.ldFVx 0x1) ∧
  decodeWord 0x0123 = .error (.unknownOpcode 0x0123) ∧ decodeWord 0x5121 = .error (.unknownOpcode 0x5121)

/-! ### The instruction cycle -/

/-- When the block runs, the fetch does not halt and the opcode at PC decodes to an instruction, a step is that
instruction's meaning in the state with PC advanced by 2 and the outputs cleared (R112 to R114; the outputs stand in the
state, log 5). -/
def Obligations.StepRunsTheDecodedInstruction : Prop :=
  ∀ (s : State) (i : Instr), s.Issues i → step s = exec i s.fetched

/-- The fetch's halts in the order of its checks, and a step that such a halt ends leaves PC and writes the run state;
otherwise the opcode is the two bytes at PC, high byte first, and PC advances by 2. (R112; the alignment check is the
spec's decision D20.) -/
def Obligations.FetchReadsOrHalts : Prop :=
  ∀ s : State,
    (4096 ≤ s.pc.toNat → fetch s = .error (.memoryOutOfBounds s.pc.toNat)) ∧
    (s.pc.toNat = 4095 → fetch s = .error (.memoryOutOfBounds 4096)) ∧
    (s.pc.toNat < 4095 → s.config.pcAlignCheck = true → s.pc.toNat % 2 = 1 →
      fetch s = .error (.misalignedFetch s.pc)) ∧
    (s.pc.toNat < 4095 → (s.config.pcAlignCheck = true → s.pc.toNat % 2 = 0) →
      ∃ (hi lo : Byte) (w : Word) (t : State), s.memRead s.pc.toNat = .ok hi ∧ s.memRead (s.pc.toNat + 1) = .ok lo ∧
        fetch s = .ok (w, t) ∧ w.toNat = hi.toNat * 256 + lo.toNat ∧
        t = { s with pc := t.pc } ∧ t.pc.toNat = s.pc.toNat + 2) ∧
    ∀ r, s.IsRunning → fetch s = .error r →
      step s = .next { s with runState := .halted r, displayChanged := false, waiting := false }

/-- A step whose opcode is illegal (R118) halts with InvalidOpcode after the fetch: PC is the instruction's address + 2
and nothing else is written (R113; what a halt leaves is the spec's decision D23 in R356; the outputs stand in the state,
log 5). -/
def Obligations.IllegalOpcodeHalts : Prop :=
  ∀ s : State, s.IsRunning → ¬ s.FetchHalts → legalWord s.opcodeAt = false →
    step s = .next { s.fetched with runState := .halted (.invalidOpcode s.opcodeAt) }

/-- R358: a step in Halted state changes nothing and reports neither output. (The two outputs of the last step stand in
the state, log 5.) -/
def Obligations.HaltedStepChangesNothing : Prop :=
  ∀ (s : State) (r : HaltReason), s.runState = .halted r →
    step s = .next { s with displayChanged := false, waiting := false }

/-- The model stops nowhere: every step, every event and every run of events from every state answers a next state.
(That every fatal condition is a next state, Halted, and none a fault, is the model's reading of R356, log 4.) -/
def Obligations.EveryRunGoesOn : Prop :=
  (∀ s : State, ∃ t, step s = .next t) ∧ ∀ (es : List HostEvent) (s : State), ∃ t, runEvents es s = .next t

/-- A step that halts writes the run state, leaves PC at A when the fetch halted and at A + 2 when the execute
halted, reports neither output, and leaves everything else as it was; a reset that halts leaves PC at 0x200. (R356, the spec's
decision D23; the outputs stand in the state, log 5.) -/
def Obligations.HaltingStepWritesOnlyTheRunState : Prop :=
  (∀ (s t : State) (r : HaltReason), s.IsRunning → step s = .next t → t.runState = .halted r →
    t.pc = (if 4096 ≤ s.pc.toNat + 1 ∨ (s.config.pcAlignCheck = true ∧ s.pc.toNat % 2 = 1) then s.pc else s.pc + 2) ∧
    t = { s with pc := t.pc, runState := .halted r, displayChanged := false, waiting := false }) ∧
  ∀ (s : State) (rom : List Byte) (r : HaltReason), (s.resetWith rom).runState = .halted r →
    (s.resetWith rom).pc = 0x200

/-- A step halts exactly in the conditions of R350: the fetch halts, the opcode is illegal, or the instruction's own
check fails with the reason reported. (The misaligned fetch and the key index are the spec's decisions D20 and D19.) -/
def Obligations.StepHaltsExactlyInTheFatalConditions : Prop :=
  ∀ (s t : State), s.IsRunning → step s = .next t →
    (¬ t.IsRunning ↔ s.FetchHalts ∨ legalWord s.opcodeAt = false ∨ ∃ i r, s.Issues i ∧ OwnHalt i s.fetched r) ∧
    ∀ i r, s.Issues i → OwnHalt i s.fetched r → t.runState = .halted r

/-! ### Invariants -/

/-- Every step keeps the canonical form of memory (the model's own, log 10), PC at most 0x10FE (R35 derives it) and every
stack entry at most 0x1000. -/
def Obligations.StepKeepsTheInvariant : Prop :=
  ∀ s t : State, s.Inv → step s = .next t → t.Inv

/-- Every run of host events keeps the same invariant, and never changes the configuration inputs. -/
def Obligations.RunsKeepTheInvariantAndTheConfiguration : Prop :=
  ∀ (es : List HostEvent) (s t : State), s.Inv → runEvents es s = .next t → t.Inv ∧ t.config = s.config

/-- The reset state meets the invariant. -/
def Obligations.ResetMeetsTheInvariant : Prop := State.reset.Inv

/-! ### Who writes what: the frame of every instruction -/

/-- An instruction writes no V register but those R32 lists for it (LD_VX_KEY none when no key is pressed); tick and
set_key write none; reset sets all to 0. (R32 is derived by the spec from the instruction rules; the reset value is its
decision D24.) -/
def Obligations.OnlyTheListedWritersWriteV : Prop :=
  (∀ (i : Instr) (s t : State) (r : Nibble), exec i s = .next t → ¬ MayWriteV i r → t.readV r = s.readV r) ∧
  (∀ (s t : State) (x r : Nibble), (∀ k, s.key k = false) → exec (.ldVxKey x) s = .next t → t.readV r = s.readV r) ∧
  (∀ (s : State) (r k : Nibble) (p : Bool), s.tick.readV r = s.readV r ∧ (s.withKey k p).readV r = s.readV r) ∧
  ∀ (s : State) (rom : List Byte) (r : Nibble), (s.resetWith rom).readV r = 0x00

/-- No instruction but LD_I, ADD_I_VX and LD_F_VX writes I, only CALL and RET touch SP and the stack, only LD_DT_VX
writes DT, and only LD_ST_VX writes ST. (That DRW, LD_B_VX, LD_I_VX and LD_VX_I leave I is the spec's decision D17 in
R37, log 14.) -/
def Obligations.OnlyTheListedWritersWriteIStackAndTimers : Prop :=
  ∀ (i : Instr) (s t : State), exec i s = .next t →
    ((∀ nnn, i ≠ .ldI nnn) → (∀ x, i ≠ .addIVx x) → (∀ x, i ≠ .ldFVx x) → t.i = s.i) ∧
    (i ≠ .ret → (∀ nnn, i ≠ .call nnn) → t.sp = s.sp ∧ t.stack = s.stack) ∧
    ((∀ x, i ≠ .ldDtVx x) → t.dt = s.dt) ∧
    ((∀ x, i ≠ .ldStVx x) → t.st = s.st)

/-- Every byte of memory outside the addresses an instruction stores to reads as before; an instruction that stores
nothing leaves all of memory. -/
def Obligations.StoresTouchOnlyTheirAddresses : Prop :=
  ∀ (i : Instr) (s t : State), s.MemoryWf → exec i s = .next t →
    ∀ a : Nat, ¬ StoresAt i s a → t.memRead a = s.memRead a

/-- No instruction but CLS and DRW writes the framebuffer or reports a changed display, only LD_VX_KEY reports waiting,
and no instruction writes the keypad or the configuration. (That no other instruction reports a changed display is the
spec's decision D11 in R296; the two outputs stand in the state, log 5.) -/
def Obligations.OnlyClsAndDrwWriteTheFramebuffer : Prop :=
  ∀ (i : Instr) (s t : State), exec i s = .next t →
    (isDisplay i = false → t.framebuffer = s.framebuffer ∧ t.displayChanged = s.displayChanged) ∧
    ((∀ x, i ≠ .ldVxKey x) → t.waiting = s.waiting) ∧ t.keypad = s.keypad ∧ t.config = s.config

/-- RND takes exactly one byte from the RNG port, and no other instruction takes one. -/
def Obligations.OnlyRndDrawsARandomByte : Prop :=
  ∀ (i : Instr) (s t : State), exec i s = .next t →
    ((∀ x kk, i ≠ .rnd x kk) → t.rngSupply = s.rngSupply ∧ t.rngDrawn = s.rngDrawn) ∧
    ((∃ x kk, i = .rnd x kk) → t.rngSupply = s.rngSupply.drop 1 ∧ t.rngDrawn = s.rngDrawn + 1)

/-- Every instruction but the jumps, CALL, RET, the skips and LD_VX_KEY leaves PC at the address after it, and one that
is no jump, CALL or RET keeps an even PC even. -/
def Obligations.PcAdvancesByTwo : Prop :=
  ∀ (s t : State) (i : Instr), s.Issues i → step s = .next t →
    (isControl i = false → t.pc.toNat = s.pc.toNat + 2) ∧
    (isTransfer i = false → s.pc.toNat % 2 = 0 → t.pc.toNat % 2 = 0)

/-- A step reports display_changed exactly when it executes CLS or DRW to completion; and it reports waiting
exactly when it executes LD_VX_KEY with no key pressed. (R296 and R61, the spec's decisions D11 and D32; the outputs
stand in the state, log 5.) -/
def Obligations.StepOutputsAreExact : Prop :=
  ∀ s t : State, step s = .next t →
    (t.displayChanged = true ↔ t.IsRunning ∧ ∃ i, s.Issues i ∧ isDisplay i = true) ∧
    (t.waiting = true ↔ (∃ x, s.Issues (.ldVxKey x)) ∧ ∀ k, s.key k = false)

/-- No instruction reads ST: two runs of an instruction that differ only in ST differ in nothing else after it. -/
def Obligations.NoInstructionReadsTheSoundTimer : Prop :=
  ∀ (i : Instr) (s : State) (b : Byte), ∃ t u, exec i s = .next t ∧ exec i { s with st := b } = .next u ∧
    u = { t with st := u.st }

/-! ### ALU (42_alu.md) -/

/-- R202, R204: the two loads change VX and nothing else. -/
def Obligations.LoadImmediateAndMove : Prop :=
  ∀ (s : State) (x y : Nibble) (kk : Byte),
    (∃ t, exec (.ldVxKk x kk) s = .next t ∧ SetsRegister s t x kk) ∧
    (∃ t, exec (.ldVxVy x y) s = .next t ∧ SetsRegister s t x (s.readV y))

/-- ADD_VX_KK adds modulo 256 and changes VX and nothing else: VF keeps its value whatever the sum (R203, the spec's
decision D6). -/
def Obligations.AddImmediateHasNoFlag : Prop :=
  ∀ (s : State) (x : Nibble) (kk : Byte), ∃ t, exec (.addVxKk x kk) s = .next t ∧
    SetsRegister s t x (BitVec.ofNat 8 (((s.readV x).toNat + kk.toNat) % 256)) ∧
    (x ≠ 0xF → t.readV 0xF = s.readV 0xF)

/-- The logic operations, bit by bit, change VX and nothing else; x = y leaves VX under OR and AND and gives 0 under XOR.
(R209, R210, R211; that VF keeps its value is the spec's decision D6.) -/
def Obligations.LogicOperations : Prop :=
  ∀ (s : State) (x y : Nibble),
    (∃ t b, exec (.orVxVy x y) s = .next t ∧ SetsRegister s t x b ∧
      (∀ k, b.getLsbD k = ((s.readV x).getLsbD k || (s.readV y).getLsbD k)) ∧ (x = y → b = s.readV x)) ∧
    (∃ t b, exec (.andVxVy x y) s = .next t ∧ SetsRegister s t x b ∧
      (∀ k, b.getLsbD k = ((s.readV x).getLsbD k && (s.readV y).getLsbD k)) ∧ (x = y → b = s.readV x)) ∧
    (∃ t b, exec (.xorVxVy x y) s = .next t ∧ SetsRegister s t x b ∧
      (∀ k, b.getLsbD k = ((s.readV x).getLsbD k ^^ (s.readV y).getLsbD k)) ∧ (x = y → b = 0x00))

/-- R212, R213, R216: the sums and differences modulo 256 with the carry or the no-borrow flag; x = F leaves only the
flag in VF, and VF as an operand is its old value. -/
def Obligations.AddAndSubtractWithFlag : Prop :=
  ∀ (s : State) (x y : Nibble),
    (∃ t, exec (.addVxVy x y) s = .next t ∧
      SetsRegisterAndFlag s t x (BitVec.ofNat 8 (((s.readV x).toNat + (s.readV y).toNat) % 256))
        (if (s.readV x).toNat + (s.readV y).toNat > 255 then 1 else 0)) ∧
    (∃ t, exec (.subVxVy x y) s = .next t ∧
      SetsRegisterAndFlag s t x (BitVec.ofNat 8 (((s.readV x).toNat + 256 - (s.readV y).toNat) % 256))
        (if (s.readV x).toNat ≥ (s.readV y).toNat then 1 else 0)) ∧
    (∃ t, exec (.subnVxVy x y) s = .next t ∧
      SetsRegisterAndFlag s t x (BitVec.ofNat 8 (((s.readV y).toNat + 256 - (s.readV x).toNat) % 256))
        (if (s.readV y).toNat ≥ (s.readV x).toNat then 1 else 0))

/-- The shifts by one of VY under LEGACY and of VX under MODERN, the result to VX in both modes, VF the bit shifted out.
(R214, R215, R218; which register LEGACY shifts is the spec's decision D7, and the switch is open, log 2.) -/
def Obligations.ShiftsByTheConfiguredSource : Prop :=
  ∀ (s : State) (x y : Nibble) (src : Byte),
    src = (if s.config.shiftSource = .legacy then s.readV y else s.readV x) →
    (∃ t, exec (.shrVxVy x y) s = .next t ∧
      SetsRegisterAndFlag s t x (BitVec.ofNat 8 (src.toNat / 2)) (BitVec.ofNat 8 (src.toNat % 2))) ∧
    (∃ t, exec (.shlVxVy x y) s = .next t ∧
      SetsRegisterAndFlag s t x (BitVec.ofNat 8 (src.toNat * 2 % 256)) (BitVec.ofNat 8 (src.toNat / 128)))

/-- RND ANDs one byte of the RNG port with kk into VX (R219). The byte is the oldest the host has supplied, whatever it
is; with none supplied it is a free value (the model's choice, log 6), of which nothing is said. -/
def Obligations.RandomAndMask : Prop :=
  ∀ (s : State) (x : Nibble) (kk : Byte), ∃ (t : State) (r : Byte),
    exec (.rnd x kk) s = .next t ∧ t.readV x = r &&& kk ∧ (∀ z, z ≠ x → t.readV z = s.readV z) ∧
    t = { s with v := t.v, rngSupply := t.rngSupply, rngDrawn := s.rngDrawn + 1 } ∧
    (∀ b rest, s.rngSupply = b :: rest → r = b ∧ t.rngSupply = rest) ∧
    (s.rngSupply = [] → t.rngSupply = [])

/-! ### Control flow (41_control_flow.md) -/

/-- JP goes to nnn and JP_V0 to nnn + V0, neither wrapped nor masked, and nothing else changes. (R161, R167; that the sum
is not reduced to 12 bits is the spec's decision D30.) -/
def Obligations.JumpTargets : Prop :=
  ∀ (s : State) (nnn : Addr12),
    (∃ t, exec (.jp nnn) s = .next t ∧ t = { s with pc := t.pc } ∧ t.pc.toNat = nnn.toNat) ∧
    (∃ t, exec (.jpV0 nnn) s = .next t ∧ t = { s with pc := t.pc } ∧
      t.pc.toNat = nnn.toNat + (s.readV 0x0).toNat)

/-- R162: CALL pushes PC and goes to nnn; with 16 entries it halts with StackOverflow and nothing else changes. -/
def Obligations.CallPushesOrOverflows : Prop :=
  ∀ (s : State) (nnn : Addr12),
    (∀ h : s.sp.val < 16, ∃ t, exec (.call nnn) s = .next t ∧
      t = { s with pc := t.pc, stack := t.stack, sp := t.sp } ∧ t.pc.toNat = nnn.toNat ∧
      t.sp.val = s.sp.val + 1 ∧ t.stack[s.sp.val] = s.pc ∧
      ∀ k : Fin 16, k.val ≠ s.sp.val → t.stack[k] = s.stack[k]) ∧
    (s.sp.val = 16 → exec (.call nnn) s = .next { s with runState := .halted .stackOverflow })

/-- R160: RET pops PC, unchecked; with an empty stack it halts with StackUnderflow and nothing else changes. -/
def Obligations.RetPopsOrUnderflows : Prop :=
  ∀ s : State,
    (∀ h : 0 < s.sp.val, ∃ t, exec .ret s = .next t ∧ t = { s with pc := t.pc, sp := t.sp } ∧
      t.sp.val = s.sp.val - 1 ∧ t.pc = s.stack[s.sp.val - 1]) ∧
    (s.sp.val = 0 → exec .ret s = .next { s with runState := .halted .stackUnderflow })

/-- A CALL followed by a RET returns to the instruction after the CALL with every register as before
(95_test_vectors.md L1-7). -/
def Obligations.CallThenRetReturns : Prop :=
  ∀ (s : State) (nnn : Addr12), s.sp.val < 16 → ∃ t u, exec (.call nnn) s = .next t ∧ exec .ret t = .next u ∧
    u = { s with stack := u.stack }

/-- R163 to R166: a skip adds 2 to PC exactly when its condition holds and changes nothing else. -/
def Obligations.RegisterSkips : Prop :=
  ∀ (s : State) (x y : Nibble) (kk : Byte),
    (∃ t, exec (.seVxKk x kk) s = .next t ∧ t = { s with pc := t.pc } ∧
      (s.readV x = kk → t.pc = s.pc + 2) ∧ (s.readV x ≠ kk → t.pc = s.pc)) ∧
    (∃ t, exec (.sneVxKk x kk) s = .next t ∧ t = { s with pc := t.pc } ∧
      (s.readV x ≠ kk → t.pc = s.pc + 2) ∧ (s.readV x = kk → t.pc = s.pc)) ∧
    (∃ t, exec (.seVxVy x y) s = .next t ∧ t = { s with pc := t.pc } ∧
      (s.readV x = s.readV y → t.pc = s.pc + 2) ∧ (s.readV x ≠ s.readV y → t.pc = s.pc)) ∧
    (∃ t, exec (.sneVxVy x y) s = .next t ∧ t = { s with pc := t.pc } ∧
      (s.readV x ≠ s.readV y → t.pc = s.pc + 2) ∧ (s.readV x = s.readV y → t.pc = s.pc))

/-! ### Index register and memory (43_index_memory.md) -/

/-- The three writers of I, with the sum modulo 65536 and the glyph of VX's low nibble, change I and nothing else. (R250,
R251, R252; no flag and no bounds check on ADD_I_VX are the spec's decisions D6 and D14.) -/
def Obligations.IndexRegisterWrites : Prop :=
  ∀ (s : State) (x : Nibble) (nnn : Addr12),
    (∃ t, exec (.ldI nnn) s = .next t ∧ t = { s with i := t.i } ∧ t.i.toNat = nnn.toNat) ∧
    (∃ t, exec (.addIVx x) s = .next t ∧ t = { s with i := t.i } ∧
      t.i.toNat = (s.i.toNat + (s.readV x).toNat) % 65536) ∧
    (∃ t, exec (.ldFVx x) s = .next t ∧ t = { s with i := t.i } ∧
      t.i.toNat = s.config.fontBase.val + 5 * ((s.readV x).toNat % 16))

/-- The BCD digits of VX at I, I+1, I+2 and nothing else; past the end of memory nothing is written and the block
halts with the lowest failing address. (R253; that I is unchanged is the spec's decision D17.) -/
def Obligations.BcdStore : Prop :=
  ∀ (s : State) (x : Nibble), s.MemoryWf →
    (s.i.toNat + 2 < 4096 → ∃ t, exec (.ldBVx x) s = .next t ∧
      StoresBytes s t s.i.toNat
        [BitVec.ofNat 8 ((s.readV x).toNat / 100), BitVec.ofNat 8 ((s.readV x).toNat / 10 % 10),
         BitVec.ofNat 8 ((s.readV x).toNat % 10)]) ∧
    (4096 ≤ s.i.toNat + 2 → exec (.ldBVx x) s =
      .next { s with runState := .halted (.memoryOutOfBounds (max s.i.toNat 4096)) })

/-- V0 to VX at I to I + x and nothing else; past the end of memory nothing is written and the block halts with
the lowest failing address. (R254; that I is unchanged is the spec's decision D17.) -/
def Obligations.RegisterBlockStore : Prop :=
  ∀ (s : State) (x : Nibble), s.MemoryWf →
    (s.i.toNat + x.toNat < 4096 → ∃ t, exec (.ldIVx x) s = .next t ∧ t = { s with memory := t.memory } ∧
      (∀ r : Nibble, r.toNat ≤ x.toNat → t.memRead (s.i.toNat + r.toNat) = .ok (s.readV r)) ∧
      ∀ a, (a < s.i.toNat ∨ s.i.toNat + x.toNat < a) → t.memRead a = s.memRead a) ∧
    (4096 ≤ s.i.toNat + x.toNat → exec (.ldIVx x) s =
      .next { s with runState := .halted (.memoryOutOfBounds (max s.i.toNat 4096)) })

/-- V0 to VX are the bytes at I to I + x and nothing else changes; past the end of memory no register is written
and the block halts with the lowest failing address. (R255; that I is unchanged is the spec's decision D17.) -/
def Obligations.RegisterBlockLoad : Prop :=
  ∀ (s : State) (x : Nibble),
    (s.i.toNat + x.toNat < 4096 → ∃ t, exec (.ldVxI x) s = .next t ∧ t = { s with v := t.v } ∧
      (∀ r : Nibble, r.toNat ≤ x.toNat → s.memRead (s.i.toNat + r.toNat) = .ok (t.readV r)) ∧
      ∀ r : Nibble, x.toNat < r.toNat → t.readV r = s.readV r) ∧
    (4096 ≤ s.i.toNat + x.toNat → exec (.ldVxI x) s =
      .next { s with runState := .halted (.memoryOutOfBounds (max s.i.toNat 4096)) })

/-- Storing V0 to VX and loading them back leaves every register, I among them, as it was before the store, and nothing
but the memory the store wrote differs. (That both leave I, so that the load reads where the store wrote, is the spec's
decision D17, log 14.) -/
def Obligations.StoreThenLoadRestoresRegisters : Prop :=
  ∀ (s : State) (x : Nibble), s.MemoryWf → s.i.toNat + x.toNat < 4096 →
    ∃ t u, exec (.ldIVx x) s = .next t ∧ exec (.ldVxI x) t = .next u ∧ u = { s with memory := t.memory } ∧
      ∀ r, u.readV r = s.readV r

/-! ### Display (44_display.md) -/

/-- CLS clears every pixel, reports display_changed even when none changes, and changes nothing else. (R290, the spec's
decision D11.) -/
def Obligations.ClearScreen : Prop :=
  ∀ s : State, ∃ t, exec .cls s = .next t ∧ (∀ px py, t.getPixel px py = false) ∧
    t = { s with framebuffer := t.framebuffer, displayChanged := true }

/-- DRW flips exactly the pixels a 1 bit of the sprite lands on, VF is 1 exactly when one of them was
lit, and nothing else changes; past the end of memory nothing is drawn and the block halts with the lowest failing
address. (R291 to R294; the bit order, the edge modes and the case n = 0 are the spec's decisions D9, D8 and D10.) -/
def Obligations.DrawFlipsTheSpritesPixels : Prop :=
  ∀ (s : State) (x y n : Nibble),
    ((n.toNat = 0 ∨ s.i.toNat + n.toNat ≤ 4096) → ∃ t, exec (.drw x y n) s = .next t ∧
      (∀ px py, t.getPixel px py ≠ s.getPixel px py ↔ SpriteCovers s x y n px py) ∧
      (t.readV 0xF = 1 ∧ (∃ px py, SpriteCovers s x y n px py ∧ s.getPixel px py = true) ∨
       t.readV 0xF = 0 ∧ ¬ ∃ px py, SpriteCovers s x y n px py ∧ s.getPixel px py = true) ∧
      (∀ r, r ≠ 0xF → t.readV r = s.readV r) ∧
      t = { s with v := t.v, framebuffer := t.framebuffer, displayChanged := true }) ∧
    (0 < n.toNat → 4096 < s.i.toNat + n.toNat → exec (.drw x y n) s =
      .next { s with runState := .halted (.memoryOutOfBounds (max s.i.toNat 4096)) })

/-- DRW with n = 0 reads no memory and makes no bounds check: whatever I is, no pixel changes, VF is 0 and
display_changed is reported. (R295, the spec's decision D10.) -/
def Obligations.DrawOfNoRows : Prop :=
  ∀ (s : State) (x y : Nibble), ∃ t, exec (.drw x y 0x0) s = .next t ∧
    t = { s with v := t.v, displayChanged := true } ∧ t.readV 0xF = 0 ∧ ∀ r, r ≠ 0xF → t.readV r = s.readV r

/-- Drawing the same sprite twice at the same place restores the framebuffer. (x and y name other registers than VF,
which each draw overwrites, so that both draws start at the same point; 95_test_vectors.md L1-6.) -/
def Obligations.DrawingTwiceRestoresTheFramebuffer : Prop :=
  ∀ (s : State) (x y n : Nibble), x ≠ 0xF → y ≠ 0xF → (n.toNat = 0 ∨ s.i.toNat + n.toNat ≤ 4096) →
    ∃ t u, exec (.drw x y n) s = .next t ∧ exec (.drw x y n) t = .next u ∧ u.framebuffer = s.framebuffer

/-! ### Keypad and timers (45_keypad_timers.md) -/

/-- SKP and SKNP skip by the state of the key VX names, and halt with KeyIndexOutOfRange for VX above 0x0F;
nothing else changes. (R320, R321; the halt is the spec's decision D19.) -/
def Obligations.KeySkips : Prop :=
  ∀ (s : State) (x k : Nibble),
    ((s.readV x).toNat = k.toNat →
      (∃ t, exec (.skp x) s = .next t ∧ t = { s with pc := t.pc } ∧
        (s.key k = true → t.pc = s.pc + 2) ∧ (s.key k = false → t.pc = s.pc)) ∧
      (∃ t, exec (.sknp x) s = .next t ∧ t = { s with pc := t.pc } ∧
        (s.key k = false → t.pc = s.pc + 2) ∧ (s.key k = true → t.pc = s.pc))) ∧
    (0x0F < (s.readV x).toNat →
      exec (.skp x) s = .next { s with runState := .halted (.keyIndexOutOfRange (s.readV x)) } ∧
      exec (.sknp x) s = .next { s with runState := .halted (.keyIndexOutOfRange (s.readV x)) })

/-- LD_VX_KEY puts the smallest pressed key into VX; with none pressed it puts PC back by 2 and reports waiting;
nothing else changes. (R322; the level test and the smallest index are the spec's decision D18.) -/
def Obligations.KeyWait : Prop :=
  ∀ (s : State) (x : Nibble),
    (∀ k : Nibble, s.key k = true → (∀ j : Nibble, j.toNat < k.toNat → s.key j = false) →
      ∃ t, exec (.ldVxKey x) s = .next t ∧ SetsRegister s t x (BitVec.ofNat 8 k.toNat)) ∧
    ((∀ k, s.key k = false) → exec (.ldVxKey x) s = .next { s with pc := s.pc - 2, waiting := true })

/-- A step whose LD_VX_KEY finds no key leaves PC and everything else and reports waiting; when a key is pressed then,
the next step completes the instruction with that key. (R322, R376; that the level of the key is tested, so that the very
next step completes, is the spec's decision D18, log 14.) -/
def Obligations.WaitEndsAtTheNextStepAfterAKeyPress : Prop :=
  ∀ (s : State) (x k : Nibble), s.Issues (.ldVxKey x) → (∀ j, s.key j = false) →
    ∃ t u, step s = .next t ∧ t = { s with displayChanged := false, waiting := true } ∧
      runEvents [.setKey k true, .step] t = .next u ∧ u.readV x = BitVec.ofNat 8 k.toNat ∧
      u.pc = s.pc + 2 ∧ u.waiting = false

/-- R323, R324, R325: the timer reads and writes change their one register, and sound_active follows ST at once. -/
def Obligations.TimerAccess : Prop :=
  ∀ (s : State) (x : Nibble),
    (∃ t, exec (.ldVxDt x) s = .next t ∧ SetsRegister s t x s.dt) ∧
    (∃ t, exec (.ldDtVx x) s = .next t ∧ t = { s with dt := t.dt } ∧ t.dt = s.readV x) ∧
    (∃ t, exec (.ldStVx x) s = .next t ∧ t = { s with st := t.st } ∧ t.st = s.readV x ∧
      (t.soundActive = true ↔ s.readV x ≠ 0x00))

/-! ### Host events (60_exceptions.md, 70_reset_and_hazards.md) -/

/-- R370: a tick in Running state takes 1 from each timer above 0, leaves a timer at 0 at 0, and changes nothing else. -/
def Obligations.TickDecrementsTowardZero : Prop :=
  ∀ s : State, s.IsRunning → ∃ t, handle .tick s = .next t ∧ t = { s with dt := t.dt, st := t.st } ∧
    (0 < s.dt.toNat → t.dt.toNat + 1 = s.dt.toNat) ∧ (s.dt = 0x00 → t.dt = 0x00) ∧
    (0 < s.st.toNat → t.st.toNat + 1 = s.st.toNat) ∧ (s.st = 0x00 → t.st = 0x00)

/-- After at least as many ticks as a timer's value it is 0, and it stays 0 (95_test_vectors.md L1-10, E-1). -/
def Obligations.TimersReachZeroAndStay : Prop :=
  ∀ (s t : State) (k : Nat), s.IsRunning → runEvents (List.replicate k .tick) s = .next t →
    t.dt.toNat = s.dt.toNat - k ∧ t.st.toNat = s.st.toNat - k ∧ t = { s with dt := t.dt, st := t.st }

/-- set_key sets one key and changes nothing else, in both run states. (R65, the spec's decision D33.) -/
def Obligations.SetKeyWritesOneKey : Prop :=
  ∀ (s : State) (k : Nibble) (pressed : Bool), ∃ t, handle (.setKey k pressed) s = .next t ∧
    t = { s with keypad := t.keypad } ∧ t.key k = pressed ∧ ∀ j, j ≠ k → t.key j = s.key j

/-- Reset with a ROM of at most 3584 bytes leaves the ROM at 0x200, the font at FONT_BASE, zero elsewhere,
every register 0, the stack empty, no pixel lit, no key down, PC 0x200 and the block Running. (R390, R391; the values
the source leaves open are the spec's decision D24.) -/
def Obligations.ResetLoadsTheRom : Prop :=
  ∀ (s : State) (rom : List Byte), rom.length ≤ 3584 → ∃ t, handle (.reset rom) s = .next t ∧ t.IsRunning ∧
    t.pc.toNat = 0x200 ∧ (∀ a, a < 4096 → t.memRead a = .ok (resetByte s.config rom a)) ∧
    (∀ r, t.readV r = 0x00) ∧ t.i = 0x0000 ∧ t.dt = 0x00 ∧ t.st = 0x00 ∧ t.sp.val = 0 ∧
    (∀ k : Fin 16, t.stack[k] = 0x0000) ∧ (∀ px py, t.getPixel px py = false) ∧ ∀ k, t.key k = false

/-- A longer ROM is not loaded even in part: memory is the reset image, and the block is Halted(RomTooLarge, len)
until the next reset, whatever steps come before it. (R392; that no byte is copied is the spec's decision D25.) -/
def Obligations.OversizedRomHalts : Prop :=
  ∀ (s : State) (rom : List Byte), 3584 < rom.length → ∃ t, handle (.reset rom) s = .next t ∧
    t.runState = .halted (.romTooLarge rom.length) ∧ (∀ a, a < 4096 → t.memRead a = .ok (resetByte s.config [] a)) ∧
    ∀ k, ∃ u, runEvents (List.replicate k .step) t = .next u ∧
      u = { t with displayChanged := false, waiting := false }

/-- sound_active is ST above 0; the run state reads as its code, 0 while Running and 1 to 7 by the reason, with the
information recorded. (R67, R351; the codes are the spec's decision D21.) -/
def Obligations.ReportedSoundAndRunState : Prop :=
  ∀ (s : State) (w pc : Word) (a n : Nat) (b : Byte),
    (s.soundActive = true ↔ 0 < s.st.toNat) ∧ RunState.running.code = 0 ∧
    ((RunState.halted (.invalidOpcode w)).code = 1 ∧ (HaltReason.invalidOpcode w).info = some w.toNat) ∧
    ((RunState.halted (.memoryOutOfBounds a)).code = 2 ∧ (HaltReason.memoryOutOfBounds a).info = some a) ∧
    ((RunState.halted .stackOverflow).code = 3 ∧ HaltReason.stackOverflow.info = none) ∧
    ((RunState.halted .stackUnderflow).code = 4 ∧ HaltReason.stackUnderflow.info = none) ∧
    ((RunState.halted (.romTooLarge n)).code = 5 ∧ (HaltReason.romTooLarge n).info = some n) ∧
    ((RunState.halted (.misalignedFetch pc)).code = 6 ∧ (HaltReason.misalignedFetch pc).info = some pc.toNat) ∧
    ((RunState.halted (.keyIndexOutOfRange b)).code = 7 ∧ (HaltReason.keyIndexOutOfRange b).info = some b.toNat)

/-- After a reset the state of the block is a function of the ROM and the configuration alone: two resets with the same
ROM and configuration differ at most in the host's RNG port (the port is the model's own field, log 6 and log 7). -/
def Obligations.ResetForgetsTheSession : Prop :=
  ∀ (s s' : State) (rom : List Byte), s.config = s'.config →
    s.resetWith rom = { s'.resetWith rom with rngSupply := s.rngSupply, rngDrawn := s.rngDrawn }

/-- Halted is left by reset only: no run of steps, ticks and key events changes anything of a halted block but its keys
and the two outputs. (R360; that a tick changes nothing is the spec's decision D26.) -/
def Obligations.OnlyResetLeavesHalted : Prop :=
  ∀ (es : List HostEvent) (s t : State) (r : HaltReason), s.runState = .halted r →
    (∀ rom, HostEvent.reset rom ∉ es) → runEvents es s = .next t →
    t = { s with keypad := t.keypad, displayChanged := t.displayChanged, waiting := t.waiting }

/-- After a reset with a ROM that fits, LD_F_VX points I at the five font bytes of VX's low nibble. -/
def Obligations.GlyphOfTheLowNibble : Prop :=
  ∀ (s : State) (rom : List Byte) (x : Nibble) (b : Byte) (k : Fin 5), rom.length ≤ 3584 →
    ∃ t, exec (.ldFVx x) ((s.resetWith rom).writeV x b) = .next t ∧
      t.memRead (t.i.toNat + k.val) = .ok (s.config.fontData[5 * (b.toNat % 16) + k.val]'(by omega))

/-- A byte that LD_I_VX or LD_B_VX stores is the byte the very next fetch at its address reads, whatever that address is
and whether one byte of the opcode or both were stored: storing over an instruction, the next one among them (PC stays),
needs no fence. (R94, which the spec derives.) -/
def Obligations.StoredOpcodeIsTheNextFetched : Prop :=
  ∀ (s : State) (x : Nibble), s.MemoryWf →
    (s.i.toNat + x.toNat < 4096 → ∃ t, exec (.ldIVx x) s = .next t ∧ t.pc = s.pc ∧
      FetchesWhatWasStored s t s.i.toNat (x.toNat + 1) fun k => s.readV (BitVec.ofNat 4 k)) ∧
    (s.i.toNat + 2 < 4096 → ∃ t, exec (.ldBVx x) s = .next t ∧ t.pc = s.pc ∧
      FetchesWhatWasStored s t s.i.toNat 3 fun k => BitVec.ofNat 8 ((s.readV x).toNat / 10 ^ (2 - k) % 10))

/-- The state made for one opcode-table word runs exactly that word's instruction at its next step. (The placement is
the model's own, log 11.) -/
def Obligations.FetchWordRunsNext : Prop :=
  ∀ (s : State) (nbits w : Nat) (i : Instr), s.MemoryWf → decodeTableWord nbits w = some i →
    (s.withFetchWord nbits w).Issues i ∧
    step (s.withFetchWord nbits w) = exec i (s.withFetchWord nbits w).fetched
end

