-- ==== Sys2Proof/Laws/Decode.lean ====
section
/-! SUPPORT. The opcode's fields and the encoder's concatenations as arithmetic, and the decoder's unfolding by fields. -/

namespace Sys2Proof

/-! ### Fields as quotients and remainders (30_encoding.md R111) -/

theorem toNat_fieldOp (w : Word) : (fieldOp w).toNat = w.toNat / 4096 := by
  have := w.isLt
  simp only [fieldOp, BitVec.extractLsb'_toNat, Nat.shiftRight_eq_div_pow]
  omega

theorem toNat_fieldNnn (w : Word) : (fieldNnn w).toNat = w.toNat % 4096 := by
  simp [fieldNnn, BitVec.extractLsb'_toNat]

theorem toNat_fieldX (w : Word) : (fieldX w).toNat = w.toNat / 256 % 16 := by
  simp [fieldX, BitVec.extractLsb'_toNat, Nat.shiftRight_eq_div_pow]

theorem toNat_fieldKk (w : Word) : (fieldKk w).toNat = w.toNat % 256 := by
  simp [fieldKk, BitVec.extractLsb'_toNat]

theorem toNat_fieldY (w : Word) : (fieldY w).toNat = w.toNat / 16 % 16 := by
  simp [fieldY, BitVec.extractLsb'_toNat, Nat.shiftRight_eq_div_pow]

theorem toNat_fieldN (w : Word) : (fieldN w).toNat = w.toNat % 16 := by
  simp [fieldN, BitVec.extractLsb'_toNat]

/-! ### Concatenation as arithmetic -/

theorem toNat_concat {m n : Nat} (a : BitVec m) (b : BitVec n) : (a ++ b).toNat = a.toNat * 2 ^ n + b.toNat := by
  rw [BitVec.toNat_append, ← Nat.shiftLeft_add_eq_or_of_lt b.isLt, Nat.shiftLeft_eq]

theorem toNat_wordOfBytes (hi lo : Byte) : (wordOfBytes hi lo).toNat = hi.toNat * 256 + lo.toNat :=
  toNat_concat hi lo

theorem toNat_highByte (w : Word) : (highByte w).toNat = w.toNat / 256 := by
  have := w.isLt
  simp only [highByte, BitVec.extractLsb'_toNat, Nat.shiftRight_eq_div_pow]
  omega

theorem toNat_lowByte (w : Word) : (lowByte w).toNat = w.toNat % 256 := by
  simp [lowByte, BitVec.extractLsb'_toNat]

/-- An opcode is its two bytes. -/
@[simp] theorem wordOfBytes_high_low (w : Word) : wordOfBytes (highByte w) (lowByte w) = w := by
  apply BitVec.eq_of_toNat_eq
  rw [toNat_wordOfBytes, toNat_highByte, toNat_lowByte]
  omega

/-- The bytes of an opcode are the bytes it was made of. -/
@[simp] theorem highByte_wordOfBytes (hi lo : Byte) : highByte (wordOfBytes hi lo) = hi := by
  apply BitVec.eq_of_toNat_eq
  rw [toNat_highByte, toNat_wordOfBytes]
  have := lo.isLt
  omega

@[simp] theorem lowByte_wordOfBytes (hi lo : Byte) : lowByte (wordOfBytes hi lo) = lo := by
  apply BitVec.eq_of_toNat_eq
  rw [toNat_lowByte, toNat_wordOfBytes]
  have := lo.isLt
  omega

/-! ### Formats of R116 -/

/-- Format A: a leading nibble and nnn. -/
theorem toNat_formatA (op : Nibble) (nnn : Addr12) : (op ++ nnn : Word).toNat = op.toNat * 4096 + nnn.toNat :=
  toNat_concat op nnn

/-- Formats XK and X: a leading nibble, x, and a byte. -/
theorem toNat_formatXK (op x : Nibble) (kk : Byte) :
    (op ++ x ++ kk : Word).toNat = op.toNat * 4096 + x.toNat * 256 + kk.toNat := by
  rw [toNat_concat, toNat_concat]
  omega

/-- Formats XY and XYN: four nibbles. -/
theorem toNat_formatXYN (op x y n : Nibble) :
    (op ++ x ++ y ++ n : Word).toNat = op.toNat * 4096 + x.toNat * 256 + y.toNat * 16 + n.toNat := by
  rw [toNat_concat, toNat_concat, toNat_concat]
  omega

section Fields
variable (op x y n : Nibble) (kk : Byte) (nnn : Addr12)

theorem fieldOp_formatA : fieldOp (op ++ nnn : Word) = op := by
  apply BitVec.eq_of_toNat_eq
  rw [toNat_fieldOp, toNat_formatA]
  have := nnn.isLt
  omega

theorem fieldNnn_formatA : fieldNnn (op ++ nnn : Word) = nnn := by
  apply BitVec.eq_of_toNat_eq
  rw [toNat_fieldNnn, toNat_formatA]
  have := nnn.isLt
  omega

theorem fieldOp_formatXK : fieldOp (op ++ x ++ kk : Word) = op := by
  apply BitVec.eq_of_toNat_eq
  rw [toNat_fieldOp, toNat_formatXK]
  have := x.isLt
  have := kk.isLt
  omega

theorem fieldX_formatXK : fieldX (op ++ x ++ kk : Word) = x := by
  apply BitVec.eq_of_toNat_eq
  rw [toNat_fieldX, toNat_formatXK]
  have := x.isLt
  have := kk.isLt
  omega

theorem fieldKk_formatXK : fieldKk (op ++ x ++ kk : Word) = kk := by
  apply BitVec.eq_of_toNat_eq
  rw [toNat_fieldKk, toNat_formatXK]
  have := kk.isLt
  omega

theorem fieldOp_formatXYN : fieldOp (op ++ x ++ y ++ n : Word) = op := by
  apply BitVec.eq_of_toNat_eq
  rw [toNat_fieldOp, toNat_formatXYN]
  have := x.isLt
  have := y.isLt
  have := n.isLt
  omega

theorem fieldX_formatXYN : fieldX (op ++ x ++ y ++ n : Word) = x := by
  apply BitVec.eq_of_toNat_eq
  rw [toNat_fieldX, toNat_formatXYN]
  have := x.isLt
  have := y.isLt
  have := n.isLt
  omega

theorem fieldY_formatXYN : fieldY (op ++ x ++ y ++ n : Word) = y := by
  apply BitVec.eq_of_toNat_eq
  rw [toNat_fieldY, toNat_formatXYN]
  have := y.isLt
  have := n.isLt
  omega

theorem fieldN_formatXYN : fieldN (op ++ x ++ y ++ n : Word) = n := by
  apply BitVec.eq_of_toNat_eq
  rw [toNat_fieldN, toNat_formatXYN]
  have := n.isLt
  omega

end Fields

/-! ### Masks of R116 as fields -/

/-- Mask 0xF000 keeps the leading nibble. -/
theorem and_F000 (w : Word) : w &&& 0xF000 = fieldOp w ++ 0x000#12 := by
  apply BitVec.eq_of_getLsbD_eq
  intro k hk
  simp only [BitVec.getLsbD_append, BitVec.getLsbD_and]
  interval_cases k <;> simp [fieldOp]

/-- Mask 0xF00F keeps the leading nibble and n. -/
theorem and_F00F (w : Word) : w &&& 0xF00F = fieldOp w ++ 0x00#8 ++ fieldN w := by
  apply BitVec.eq_of_getLsbD_eq
  intro k hk
  simp only [BitVec.getLsbD_append, BitVec.getLsbD_and]
  interval_cases k <;> simp [fieldOp, fieldN]

/-- Mask 0xF0FF keeps the leading nibble and kk. -/
theorem and_F0FF (w : Word) : w &&& 0xF0FF = fieldOp w ++ 0x0#4 ++ fieldKk w := by
  apply BitVec.eq_of_getLsbD_eq
  intro k hk
  simp only [BitVec.getLsbD_append, BitVec.getLsbD_and]
  interval_cases k <;> simp [fieldOp, fieldKk]

/-! ### The legality check by fields -/

theorem beq_toNat {n : Nat} (a b : BitVec n) : (a == b) = (a.toNat == b.toNat) := by
  rw [Bool.eq_iff_iff, beq_iff_eq, beq_iff_eq, BitVec.toNat_inj]

/-- R118's check through the fields of the word. -/
theorem legalWord_fields (w : Word) :
    legalWord w =
      if fieldOp w = 0x0 then w == 0x00E0 || w == 0x00EE
      else if fieldOp w = 0x5 ∨ fieldOp w = 0x9 then fieldN w == 0x0
      else if fieldOp w = 0x8 then
        !([0x8, 0x9, 0xA, 0xB, 0xC, 0xD, 0xF].contains (fieldN w))
      else if fieldOp w = 0xE then [0x9E, 0xA1].contains (fieldKk w)
      else if fieldOp w = 0xF then
        [0x07, 0x0A, 0x15, 0x18, 0x1E, 0x29, 0x33, 0x55, 0x65].contains (fieldKk w)
      else true := by
  have op := toNat_fieldOp w
  have n := toNat_fieldN w
  have kk := toNat_fieldKk w
  simp only [legalWord, legalZeroFamily, legalRegisterSkip, legalAluFamily, legalKeyFamily, legalMiscFamily, ← op, ← n,
    ← kk, ← BitVec.toNat_inj, List.contains_cons, List.contains_nil, beq_iff_eq, Bool.or_eq_true, beq_toNat,
    BitVec.ofNat_eq_ofNat, BitVec.toNat_ofNat, Nat.reduceMod, Nat.reducePow]

/-- A byte stream that begins with an opcode decodes to that opcode's instruction. -/
theorem decodeBytes_opcode (w : Word) (rest : List Byte) :
    decodeBytes (highByte w :: lowByte w :: rest) =
      match decodeWord w with
      | .ok i => .ok (i, rest)
      | .error e => .error e := by
  cases h : decodeWord w <;> simp only [decodeBytes, wordOfBytes_high_low, h]

/-- The table's word through the byte stream is the table's word. -/
theorem decodeTableWord_eq (nbits w : Nat) :
    decodeTableWord nbits w =
      match decodeWord (tableWord nbits w) with
      | .ok i => some i
      | .error _ => none := by
  simp only [decodeTableWord, decodeBytes_opcode]
  cases decodeWord (tableWord nbits w) <;> rfl

end Sys2Proof
end

