-- ==== Sys2Proof/Laws/State.lean ====
section
/-! SUPPORT. One lemma per field per update of the state, and one frame equation for each update that loops. -/

namespace Sys2Proof.Machine

/-! ### halt -/

@[simp] theorem halt_v (s : State) (r : HaltReason) : (s.halt r).v = s.v := rfl
@[simp] theorem halt_pc (s : State) (r : HaltReason) : (s.halt r).pc = s.pc := rfl
@[simp] theorem halt_i (s : State) (r : HaltReason) : (s.halt r).i = s.i := rfl
@[simp] theorem halt_stack (s : State) (r : HaltReason) : (s.halt r).stack = s.stack := rfl
@[simp] theorem halt_sp (s : State) (r : HaltReason) : (s.halt r).sp = s.sp := rfl
@[simp] theorem halt_dt (s : State) (r : HaltReason) : (s.halt r).dt = s.dt := rfl
@[simp] theorem halt_st (s : State) (r : HaltReason) : (s.halt r).st = s.st := rfl
@[simp] theorem halt_memory (s : State) (r : HaltReason) : (s.halt r).memory = s.memory := rfl
@[simp] theorem halt_framebuffer (s : State) (r : HaltReason) : (s.halt r).framebuffer = s.framebuffer := rfl
@[simp] theorem halt_keypad (s : State) (r : HaltReason) : (s.halt r).keypad = s.keypad := rfl
@[simp] theorem halt_runState (s : State) (r : HaltReason) : (s.halt r).runState = .halted r := rfl
@[simp] theorem halt_displayChanged (s : State) (r : HaltReason) : (s.halt r).displayChanged = s.displayChanged := rfl
@[simp] theorem halt_waiting (s : State) (r : HaltReason) : (s.halt r).waiting = s.waiting := rfl
@[simp] theorem halt_config (s : State) (r : HaltReason) : (s.halt r).config = s.config := rfl
@[simp] theorem halt_rngSupply (s : State) (r : HaltReason) : (s.halt r).rngSupply = s.rngSupply := rfl
@[simp] theorem halt_rngDrawn (s : State) (r : HaltReason) : (s.halt r).rngDrawn = s.rngDrawn := rfl

/-! ### writeV -/

@[simp] theorem writeV_v (s : State) (x : Nibble) (b : Byte) : (s.writeV x b).v = s.v.set x.toNat b x.toNat_lt_sixteen := rfl
@[simp] theorem writeV_pc (s : State) (x : Nibble) (b : Byte) : (s.writeV x b).pc = s.pc := rfl
@[simp] theorem writeV_i (s : State) (x : Nibble) (b : Byte) : (s.writeV x b).i = s.i := rfl
@[simp] theorem writeV_stack (s : State) (x : Nibble) (b : Byte) : (s.writeV x b).stack = s.stack := rfl
@[simp] theorem writeV_sp (s : State) (x : Nibble) (b : Byte) : (s.writeV x b).sp = s.sp := rfl
@[simp] theorem writeV_dt (s : State) (x : Nibble) (b : Byte) : (s.writeV x b).dt = s.dt := rfl
@[simp] theorem writeV_st (s : State) (x : Nibble) (b : Byte) : (s.writeV x b).st = s.st := rfl
@[simp] theorem writeV_memory (s : State) (x : Nibble) (b : Byte) : (s.writeV x b).memory = s.memory := rfl
@[simp] theorem writeV_framebuffer (s : State) (x : Nibble) (b : Byte) : (s.writeV x b).framebuffer = s.framebuffer := rfl
@[simp] theorem writeV_keypad (s : State) (x : Nibble) (b : Byte) : (s.writeV x b).keypad = s.keypad := rfl
@[simp] theorem writeV_runState (s : State) (x : Nibble) (b : Byte) : (s.writeV x b).runState = s.runState := rfl
@[simp] theorem writeV_displayChanged (s : State) (x : Nibble) (b : Byte) : (s.writeV x b).displayChanged = s.displayChanged := rfl
@[simp] theorem writeV_waiting (s : State) (x : Nibble) (b : Byte) : (s.writeV x b).waiting = s.waiting := rfl
@[simp] theorem writeV_config (s : State) (x : Nibble) (b : Byte) : (s.writeV x b).config = s.config := rfl
@[simp] theorem writeV_rngSupply (s : State) (x : Nibble) (b : Byte) : (s.writeV x b).rngSupply = s.rngSupply := rfl
@[simp] theorem writeV_rngDrawn (s : State) (x : Nibble) (b : Byte) : (s.writeV x b).rngDrawn = s.rngDrawn := rfl

/-! ### setByte -/

@[simp] theorem setByte_v (s : State) (a : Nat) (b : Byte) : (s.setByte a b).v = s.v := rfl
@[simp] theorem setByte_pc (s : State) (a : Nat) (b : Byte) : (s.setByte a b).pc = s.pc := rfl
@[simp] theorem setByte_i (s : State) (a : Nat) (b : Byte) : (s.setByte a b).i = s.i := rfl
@[simp] theorem setByte_stack (s : State) (a : Nat) (b : Byte) : (s.setByte a b).stack = s.stack := rfl
@[simp] theorem setByte_sp (s : State) (a : Nat) (b : Byte) : (s.setByte a b).sp = s.sp := rfl
@[simp] theorem setByte_dt (s : State) (a : Nat) (b : Byte) : (s.setByte a b).dt = s.dt := rfl
@[simp] theorem setByte_st (s : State) (a : Nat) (b : Byte) : (s.setByte a b).st = s.st := rfl
@[simp] theorem setByte_memory (s : State) (a : Nat) (b : Byte) : (s.setByte a b).memory = Memory.write s.config s.memory a b := rfl
@[simp] theorem setByte_framebuffer (s : State) (a : Nat) (b : Byte) : (s.setByte a b).framebuffer = s.framebuffer := rfl
@[simp] theorem setByte_keypad (s : State) (a : Nat) (b : Byte) : (s.setByte a b).keypad = s.keypad := rfl
@[simp] theorem setByte_runState (s : State) (a : Nat) (b : Byte) : (s.setByte a b).runState = s.runState := rfl
@[simp] theorem setByte_displayChanged (s : State) (a : Nat) (b : Byte) : (s.setByte a b).displayChanged = s.displayChanged := rfl
@[simp] theorem setByte_waiting (s : State) (a : Nat) (b : Byte) : (s.setByte a b).waiting = s.waiting := rfl
@[simp] theorem setByte_config (s : State) (a : Nat) (b : Byte) : (s.setByte a b).config = s.config := rfl
@[simp] theorem setByte_rngSupply (s : State) (a : Nat) (b : Byte) : (s.setByte a b).rngSupply = s.rngSupply := rfl
@[simp] theorem setByte_rngDrawn (s : State) (a : Nat) (b : Byte) : (s.setByte a b).rngDrawn = s.rngDrawn := rfl

/-! ### jump -/

@[simp] theorem jump_v (s : State) (w : Word) : (s.jump w).v = s.v := rfl
@[simp] theorem jump_pc (s : State) (w : Word) : (s.jump w).pc = w := rfl
@[simp] theorem jump_i (s : State) (w : Word) : (s.jump w).i = s.i := rfl
@[simp] theorem jump_stack (s : State) (w : Word) : (s.jump w).stack = s.stack := rfl
@[simp] theorem jump_sp (s : State) (w : Word) : (s.jump w).sp = s.sp := rfl
@[simp] theorem jump_dt (s : State) (w : Word) : (s.jump w).dt = s.dt := rfl
@[simp] theorem jump_st (s : State) (w : Word) : (s.jump w).st = s.st := rfl
@[simp] theorem jump_memory (s : State) (w : Word) : (s.jump w).memory = s.memory := rfl
@[simp] theorem jump_framebuffer (s : State) (w : Word) : (s.jump w).framebuffer = s.framebuffer := rfl
@[simp] theorem jump_keypad (s : State) (w : Word) : (s.jump w).keypad = s.keypad := rfl
@[simp] theorem jump_runState (s : State) (w : Word) : (s.jump w).runState = s.runState := rfl
@[simp] theorem jump_displayChanged (s : State) (w : Word) : (s.jump w).displayChanged = s.displayChanged := rfl
@[simp] theorem jump_waiting (s : State) (w : Word) : (s.jump w).waiting = s.waiting := rfl
@[simp] theorem jump_config (s : State) (w : Word) : (s.jump w).config = s.config := rfl
@[simp] theorem jump_rngSupply (s : State) (w : Word) : (s.jump w).rngSupply = s.rngSupply := rfl
@[simp] theorem jump_rngDrawn (s : State) (w : Word) : (s.jump w).rngDrawn = s.rngDrawn := rfl

/-! ### withKey -/

@[simp] theorem withKey_v (s : State) (k : Nibble) (p : Bool) : (s.withKey k p).v = s.v := rfl
@[simp] theorem withKey_pc (s : State) (k : Nibble) (p : Bool) : (s.withKey k p).pc = s.pc := rfl
@[simp] theorem withKey_i (s : State) (k : Nibble) (p : Bool) : (s.withKey k p).i = s.i := rfl
@[simp] theorem withKey_stack (s : State) (k : Nibble) (p : Bool) : (s.withKey k p).stack = s.stack := rfl
@[simp] theorem withKey_sp (s : State) (k : Nibble) (p : Bool) : (s.withKey k p).sp = s.sp := rfl
@[simp] theorem withKey_dt (s : State) (k : Nibble) (p : Bool) : (s.withKey k p).dt = s.dt := rfl
@[simp] theorem withKey_st (s : State) (k : Nibble) (p : Bool) : (s.withKey k p).st = s.st := rfl
@[simp] theorem withKey_memory (s : State) (k : Nibble) (p : Bool) : (s.withKey k p).memory = s.memory := rfl
@[simp] theorem withKey_framebuffer (s : State) (k : Nibble) (p : Bool) : (s.withKey k p).framebuffer = s.framebuffer := rfl
@[simp] theorem withKey_keypad (s : State) (k : Nibble) (p : Bool) : (s.withKey k p).keypad = s.keypad.set k.toNat p k.toNat_lt_sixteen := rfl
@[simp] theorem withKey_runState (s : State) (k : Nibble) (p : Bool) : (s.withKey k p).runState = s.runState := rfl
@[simp] theorem withKey_displayChanged (s : State) (k : Nibble) (p : Bool) : (s.withKey k p).displayChanged = s.displayChanged := rfl
@[simp] theorem withKey_waiting (s : State) (k : Nibble) (p : Bool) : (s.withKey k p).waiting = s.waiting := rfl
@[simp] theorem withKey_config (s : State) (k : Nibble) (p : Bool) : (s.withKey k p).config = s.config := rfl
@[simp] theorem withKey_rngSupply (s : State) (k : Nibble) (p : Bool) : (s.withKey k p).rngSupply = s.rngSupply := rfl
@[simp] theorem withKey_rngDrawn (s : State) (k : Nibble) (p : Bool) : (s.withKey k p).rngDrawn = s.rngDrawn := rfl

/-! ### clearOutputs -/

@[simp] theorem clearOutputs_v (s : State) : s.clearOutputs.v = s.v := rfl
@[simp] theorem clearOutputs_pc (s : State) : s.clearOutputs.pc = s.pc := rfl
@[simp] theorem clearOutputs_i (s : State) : s.clearOutputs.i = s.i := rfl
@[simp] theorem clearOutputs_stack (s : State) : s.clearOutputs.stack = s.stack := rfl
@[simp] theorem clearOutputs_sp (s : State) : s.clearOutputs.sp = s.sp := rfl
@[simp] theorem clearOutputs_dt (s : State) : s.clearOutputs.dt = s.dt := rfl
@[simp] theorem clearOutputs_st (s : State) : s.clearOutputs.st = s.st := rfl
@[simp] theorem clearOutputs_memory (s : State) : s.clearOutputs.memory = s.memory := rfl
@[simp] theorem clearOutputs_framebuffer (s : State) : s.clearOutputs.framebuffer = s.framebuffer := rfl
@[simp] theorem clearOutputs_keypad (s : State) : s.clearOutputs.keypad = s.keypad := rfl
@[simp] theorem clearOutputs_runState (s : State) : s.clearOutputs.runState = s.runState := rfl
@[simp] theorem clearOutputs_displayChanged (s : State) : s.clearOutputs.displayChanged = false := rfl
@[simp] theorem clearOutputs_waiting (s : State) : s.clearOutputs.waiting = false := rfl
@[simp] theorem clearOutputs_config (s : State) : s.clearOutputs.config = s.config := rfl
@[simp] theorem clearOutputs_rngSupply (s : State) : s.clearOutputs.rngSupply = s.rngSupply := rfl
@[simp] theorem clearOutputs_rngDrawn (s : State) : s.clearOutputs.rngDrawn = s.rngDrawn := rfl

/-! ### reportDisplay -/

@[simp] theorem reportDisplay_v (s : State) : s.reportDisplay.v = s.v := rfl
@[simp] theorem reportDisplay_pc (s : State) : s.reportDisplay.pc = s.pc := rfl
@[simp] theorem reportDisplay_i (s : State) : s.reportDisplay.i = s.i := rfl
@[simp] theorem reportDisplay_stack (s : State) : s.reportDisplay.stack = s.stack := rfl
@[simp] theorem reportDisplay_sp (s : State) : s.reportDisplay.sp = s.sp := rfl
@[simp] theorem reportDisplay_dt (s : State) : s.reportDisplay.dt = s.dt := rfl
@[simp] theorem reportDisplay_st (s : State) : s.reportDisplay.st = s.st := rfl
@[simp] theorem reportDisplay_memory (s : State) : s.reportDisplay.memory = s.memory := rfl
@[simp] theorem reportDisplay_framebuffer (s : State) : s.reportDisplay.framebuffer = s.framebuffer := rfl
@[simp] theorem reportDisplay_keypad (s : State) : s.reportDisplay.keypad = s.keypad := rfl
@[simp] theorem reportDisplay_runState (s : State) : s.reportDisplay.runState = s.runState := rfl
@[simp] theorem reportDisplay_displayChanged (s : State) : s.reportDisplay.displayChanged = true := rfl
@[simp] theorem reportDisplay_waiting (s : State) : s.reportDisplay.waiting = s.waiting := rfl
@[simp] theorem reportDisplay_config (s : State) : s.reportDisplay.config = s.config := rfl
@[simp] theorem reportDisplay_rngSupply (s : State) : s.reportDisplay.rngSupply = s.rngSupply := rfl
@[simp] theorem reportDisplay_rngDrawn (s : State) : s.reportDisplay.rngDrawn = s.rngDrawn := rfl

/-! ### reportWaiting -/

@[simp] theorem reportWaiting_v (s : State) : s.reportWaiting.v = s.v := rfl
@[simp] theorem reportWaiting_pc (s : State) : s.reportWaiting.pc = s.pc := rfl
@[simp] theorem reportWaiting_i (s : State) : s.reportWaiting.i = s.i := rfl
@[simp] theorem reportWaiting_stack (s : State) : s.reportWaiting.stack = s.stack := rfl
@[simp] theorem reportWaiting_sp (s : State) : s.reportWaiting.sp = s.sp := rfl
@[simp] theorem reportWaiting_dt (s : State) : s.reportWaiting.dt = s.dt := rfl
@[simp] theorem reportWaiting_st (s : State) : s.reportWaiting.st = s.st := rfl
@[simp] theorem reportWaiting_memory (s : State) : s.reportWaiting.memory = s.memory := rfl
@[simp] theorem reportWaiting_framebuffer (s : State) : s.reportWaiting.framebuffer = s.framebuffer := rfl
@[simp] theorem reportWaiting_keypad (s : State) : s.reportWaiting.keypad = s.keypad := rfl
@[simp] theorem reportWaiting_runState (s : State) : s.reportWaiting.runState = s.runState := rfl
@[simp] theorem reportWaiting_displayChanged (s : State) : s.reportWaiting.displayChanged = s.displayChanged := rfl
@[simp] theorem reportWaiting_waiting (s : State) : s.reportWaiting.waiting = true := rfl
@[simp] theorem reportWaiting_config (s : State) : s.reportWaiting.config = s.config := rfl
@[simp] theorem reportWaiting_rngSupply (s : State) : s.reportWaiting.rngSupply = s.rngSupply := rfl
@[simp] theorem reportWaiting_rngDrawn (s : State) : s.reportWaiting.rngDrawn = s.rngDrawn := rfl

/-! ### Updates that loop or branch -/

/-- `setBytes` changes memory only. -/
theorem setBytes_frame (bytes : List Byte) (s : State) (a : Nat) :
    s.setBytes a bytes = { s with memory := (s.setBytes a bytes).memory } := by
  induction bytes generalizing s a with
  | nil => rfl
  | cons b bytes ih => rw [State.setBytes, ih]; rfl

/-- `writeVsFrom` changes the V registers only. -/
theorem writeVsFrom_frame (bytes : List Byte) (s : State) (k : Nat) :
    s.writeVsFrom k bytes = { s with v := (s.writeVsFrom k bytes).v } := by
  induction bytes generalizing s k with
  | nil => rfl
  | cons b bytes ih => rw [State.writeVsFrom, ih]; rfl

/-- `skipIf` changes PC only. -/
theorem skipIf_frame (s : State) (c : Bool) :
    s.skipIf c = { s with pc := if c then s.pc + 2 else s.pc } := by
  cases c <;> rfl

/-- `drawByte` changes the RNG port only. -/
theorem drawByte_frame (s : State) :
    s.drawByte.2 = { s with rngSupply := s.rngSupply.tail, rngDrawn := s.rngDrawn + 1 } := by
  unfold State.drawByte
  split <;> simp_all

/-- `writeWithFlag` changes the V registers only. -/
theorem writeWithFlag_frame (s : State) (x : Nibble) (result flag : Byte) :
    s.writeWithFlag x result flag = { s with v := (s.writeWithFlag x result flag).v } := rfl

/-- The writes of DRW change the framebuffer, VF and the display output only. -/
theorem afterDraw_frame (s : State) (drawn : Framebuffer × Bool) :
    s.afterDraw drawn =
      { s with v := (s.writeV 0xF (collisionFlag drawn.2)).v, framebuffer := drawn.1, displayChanged := true } := rfl

end Sys2Proof.Machine
end

