-- ==== Sys2Proof/Laws/Memory.lean ====
section
/-! SUPPORT. What the memory operations do: a read after a write, and the canonical form they keep. -/

namespace Sys2Proof.Machine

/-! ### One write -/

theorem Memory.read_cons (cfg : Config) (a : Nat) (b : Byte) (rest : Memory) (addr : Nat)
    (fresh : a = addr → Memory.read cfg rest addr = Memory.unlisted cfg addr) :
    Memory.read cfg (Memory.cons cfg a b rest) addr = if a = addr then b else Memory.read cfg rest addr := by
  unfold Memory.cons
  by_cases same : a = addr
  · subst same
    by_cases h : b = Memory.unlisted cfg a <;> simp_all [Memory.read]
  · by_cases h : b = Memory.unlisted cfg a <;> simp [h, same, Memory.read]

/-- Below every listed address, memory reads as its reset image. -/
theorem Memory.read_below (cfg : Config) (m : Memory) (low addr : Nat) (wf : Memory.wfFrom cfg low m = true)
    (below : addr < low) : Memory.read cfg m addr = Memory.unlisted cfg addr := by
  induction m generalizing low with
  | nil => rfl
  | cons c rest ih =>
    obtain ⟨a, b⟩ := c
    simp only [Memory.wfFrom, Bool.and_eq_true, decide_eq_true_eq] at wf
    rw [Memory.read, if_neg (by omega), ih (a + 1) wf.2 (by omega)]

/-- A read after a write: the written byte at the written address, the old byte elsewhere. -/
theorem Memory.read_write (cfg : Config) (m : Memory) (low a addr : Nat) (b : Byte)
    (wf : Memory.wfFrom cfg low m = true) :
    Memory.read cfg (Memory.write cfg m a b) addr = if a = addr then b else Memory.read cfg m addr := by
  induction m generalizing low with
  | nil => exact Memory.read_cons cfg a b [] addr fun _ => rfl
  | cons c rest ih =>
    obtain ⟨a', b'⟩ := c
    have wf' := wf
    simp only [Memory.wfFrom, Bool.and_eq_true, decide_eq_true_eq] at wf
    unfold Memory.write
    split
    · refine Memory.read_cons cfg a b _ addr fun same => ?_
      exact Memory.read_below cfg _ a' addr (by simp [Memory.wfFrom, wf]) (by omega)
    · split
      · rename_i _ same
        subst same
        rw [Memory.read_cons cfg a b rest addr fun same =>
          Memory.read_below cfg rest (a + 1) addr wf.2 (by omega)]
        by_cases h : a = addr <;> simp [h, Memory.read]
      · rw [Memory.read, Memory.read, ih (a' + 1) wf.2]
        by_cases h : a' = addr <;> by_cases h' : a = addr <;> simp_all

theorem Memory.wfFrom_mono (cfg : Config) (m : Memory) (low low' : Nat) (le : low ≤ low')
    (wf : Memory.wfFrom cfg low' m = true) : Memory.wfFrom cfg low m = true := by
  cases m with
  | nil => rfl
  | cons c rest =>
    simp only [Memory.wfFrom, Bool.and_eq_true, decide_eq_true_eq] at wf ⊢
    exact ⟨⟨⟨by omega, wf.1.1.2⟩, wf.1.2⟩, wf.2⟩

theorem Memory.wfFrom_cons (cfg : Config) (a low : Nat) (b : Byte) (rest : Memory) (le : low ≤ a) (inside : a < memSize)
    (wf : Memory.wfFrom cfg (a + 1) rest = true) : Memory.wfFrom cfg low (Memory.cons cfg a b rest) = true := by
  unfold Memory.cons
  by_cases h : b = Memory.unlisted cfg a
  · rw [if_pos h]
    exact Memory.wfFrom_mono cfg rest low (a + 1) (by omega) wf
  · rw [if_neg h]
    simp [Memory.wfFrom, h, le, inside, wf]

/-- A write inside memory keeps the canonical form. -/
theorem Memory.wfFrom_write (cfg : Config) (m : Memory) (low a : Nat) (b : Byte) (le : low ≤ a) (inside : a < memSize)
    (wf : Memory.wfFrom cfg low m = true) : Memory.wfFrom cfg low (Memory.write cfg m a b) = true := by
  induction m generalizing low with
  | nil => exact Memory.wfFrom_cons cfg a low b [] le inside rfl
  | cons c rest ih =>
    obtain ⟨a', b'⟩ := c
    simp only [Memory.wfFrom, Bool.and_eq_true, decide_eq_true_eq] at wf
    unfold Memory.write
    split
    · exact Memory.wfFrom_cons cfg a low b _ le inside (by simp [Memory.wfFrom, wf]; omega)
    · split
      · rename_i _ same
        exact Memory.wfFrom_cons cfg a low b rest le inside (by rw [same]; exact wf.2)
      · simp only [Memory.wfFrom, Bool.and_eq_true, decide_eq_true_eq]
        exact ⟨wf.1, ih (a' + 1) (by omega) wf.2⟩

/-! ### The state's memory -/

/-- `setByte` keeps the canonical form, for an address inside memory. -/
theorem setByte_wf (s : State) (a : Nat) (b : Byte) (inside : a < memSize)
    (wf : Memory.wf s.config s.memory = true) :
    Memory.wf (s.setByte a b).config (s.setByte a b).memory = true :=
  Memory.wfFrom_write s.config s.memory 0 a b (Nat.zero_le a) inside wf

/-- One byte after `setByte`. -/
theorem byteAt_setByte (s : State) (a addr : Nat) (b : Byte) (wf : Memory.wf s.config s.memory = true) :
    (s.setByte a b).byteAt addr = if a = addr then b else s.byteAt addr :=
  Memory.read_write s.config s.memory 0 a addr b wf

/-- `setBytes` keeps the canonical form, for a range inside memory. -/
theorem setBytes_wf (bytes : List Byte) (s : State) (a : Nat) (inside : a + bytes.length ≤ memSize)
    (wf : Memory.wf s.config s.memory = true) :
    Memory.wf s.config (s.setBytes a bytes).memory = true := by
  induction bytes generalizing s a with
  | nil => exact wf
  | cons b bytes ih =>
    simp only [List.length_cons] at inside
    exact ih (s.setByte a b) (a + 1) (by omega) (setByte_wf s a b (by omega) wf)

/-- One byte after `setBytes`: the written bytes in their range, the old byte elsewhere. -/
theorem byteAt_setBytes (bytes : List Byte) (s : State) (a addr : Nat) (inside : a + bytes.length ≤ memSize)
    (wf : Memory.wf s.config s.memory = true) :
    (s.setBytes a bytes).byteAt addr =
      if h : a ≤ addr ∧ addr < a + bytes.length then bytes[addr - a]'(by omega) else s.byteAt addr := by
  induction bytes generalizing s a with
  | nil =>
    rw [dif_neg (by simp only [List.length_nil]; omega)]
    rfl
  | cons b bytes ih =>
    simp only [List.length_cons] at inside
    rw [State.setBytes, ih (s.setByte a b) (a + 1) (by omega) (setByte_wf s a b (by omega) wf),
      byteAt_setByte s a addr b wf]
    by_cases same : a = addr
    · subst same
      simp only [Nat.sub_self, List.length_cons, List.getElem_cons_zero, if_true]
      rw [dif_neg (by omega), dif_pos (by omega)]
    · by_cases h : a + 1 ≤ addr ∧ addr < a + 1 + bytes.length
      · have split : addr - a = (addr - (a + 1)) + 1 := by omega
        rw [dif_pos h, dif_pos (by simp; omega)]
        simp [split]
      · rw [dif_neg h, if_neg same, dif_neg (by simp; omega)]

end Sys2Proof.Machine
end

