-- ==== Sys2Proof/Laws/Ops.lean ====
section
/-! SUPPORT. One lemma per shared operation that says everything it can do. -/

namespace Sys2Proof.Machine

/-! ### Ending an instruction -/

@[simp] theorem completeWith_ok {α : Type} (s : State) (a : α) (writes : α → State) :
    completeWith s (.ok a) writes = .next (writes a) := rfl

@[simp] theorem completeWith_error {α : Type} (s : State) (r : HaltReason) (writes : α → State) :
    completeWith s (.error r) writes = .next (s.halt r) := rfl

/-! ### Registers -/

/-- A register after a register write. -/
theorem readV_writeV (s : State) (x y : Nibble) (b : Byte) :
    (s.writeV x b).readV y = if x = y then b else s.readV y := by
  unfold State.readV State.writeV
  by_cases h : x = y
  · subst h
    simp
  · have : x.toNat ≠ y.toNat := fun e => h (BitVec.eq_of_toNat_eq e)
    simp [h, this]

/-- A state with the same V registers reads the same. -/
theorem readV_congr {s t : State} (same : t.v = s.v) (x : Nibble) : t.readV x = s.readV x := by
  unfold State.readV
  simp only [same]

/-- A register after a result and its flag are written: the flag in VF, the result in VX unless X is F. -/
theorem readV_writeWithFlag (s : State) (x y : Nibble) (result flag : Byte) :
    (s.writeWithFlag x result flag).readV y =
      if y = 0xF then flag else if x = y then result else s.readV y := by
  unfold State.writeWithFlag
  rw [readV_writeV, readV_writeV]
  simp only [eq_comm]

theorem toNat_ofNat_four {k : Nat} (h : k < 16) : (BitVec.ofNat 4 k).toNat = k := by
  simp only [BitVec.toNat_ofNat]
  omega

/-- A register after `writeVsFrom`: the bytes in their range, the old values elsewhere. -/
theorem readV_writeVsFrom (bytes : List Byte) (s : State) (k : Nat) (y : Nibble) (fits : k + bytes.length ≤ 16) :
    (s.writeVsFrom k bytes).readV y =
      if h : k ≤ y.toNat ∧ y.toNat < k + bytes.length then bytes[y.toNat - k]'(by omega) else s.readV y := by
  induction bytes generalizing s k with
  | nil =>
    rw [dif_neg (by simp only [List.length_nil]; omega)]
    rfl
  | cons b bytes ih =>
    simp only [List.length_cons] at fits
    rw [State.writeVsFrom, ih _ (k + 1) (by omega), readV_writeV]
    by_cases same : BitVec.ofNat 4 k = y
    · have here : y.toNat = k := by rw [← same, toNat_ofNat_four (by omega)]
      simp only [here, same, Nat.sub_self, List.length_cons, List.getElem_cons_zero, if_true]
      rw [dif_neg (by omega), dif_pos (by omega)]
    · have away : y.toNat ≠ k := fun e =>
        same (BitVec.eq_of_toNat_eq (by rw [toNat_ofNat_four (by omega)]; exact e.symm))
      by_cases h : k + 1 ≤ y.toNat ∧ y.toNat < k + 1 + bytes.length
      · have shift : y.toNat - k = (y.toNat - (k + 1)) + 1 := by omega
        rw [dif_pos h, dif_pos (by simp only [List.length_cons]; omega)]
        simp only [shift, List.getElem_cons_succ]
      · rw [dif_neg h, if_neg same, dif_neg (by simp only [List.length_cons]; omega)]

/-! ### Memory accesses -/

/-- `CheckRange` passes exactly when the range lies inside memory or is empty. -/
theorem checkRange_ok {base count : Nat} (inside : count = 0 ∨ base + count ≤ memSize) :
    checkRange base count = .ok () := by
  unfold checkRange
  rw [if_neg (by unfold memSize at *; omega)]

/-- `CheckRange` raises the lowest failing address. -/
theorem checkRange_error {base count : Nat} (some : 0 < count) (outside : memSize < base + count) :
    checkRange base count = .error (.memoryOutOfBounds (max base memSize)) := by
  unfold checkRange
  rw [if_pos (by unfold memSize at *; omega)]

theorem memReadRange_ok (s : State) {base count : Nat} (inside : count = 0 ∨ base + count ≤ memSize) :
    s.memReadRange base count = .ok ((List.range count).map fun k => s.byteAt (base + k)) := by
  simp only [State.memReadRange, checkRange_ok inside]

theorem memReadRange_error (s : State) {base count : Nat} (some : 0 < count) (outside : memSize < base + count) :
    s.memReadRange base count = .error (.memoryOutOfBounds (max base memSize)) := by
  simp only [State.memReadRange, checkRange_error some outside]

theorem memWriteRange_ok (s : State) {base : Nat} {bytes : List Byte}
    (inside : bytes.length = 0 ∨ base + bytes.length ≤ memSize) :
    s.memWriteRange base bytes = .ok (s.setBytes base bytes) := by
  simp only [State.memWriteRange, checkRange_ok inside]

theorem memWriteRange_error (s : State) {base : Nat} {bytes : List Byte} (some : 0 < bytes.length)
    (outside : memSize < base + bytes.length) :
    s.memWriteRange base bytes = .error (.memoryOutOfBounds (max base memSize)) := by
  simp only [State.memWriteRange, checkRange_error some outside]

theorem memRead_ok (s : State) {a : Nat} (inside : a < memSize) : s.memRead a = .ok (s.byteAt a) := by
  unfold State.memRead
  rw [if_neg (by omega)]

theorem memRead_error (s : State) {a : Nat} (outside : memSize ≤ a) :
    s.memRead a = .error (.memoryOutOfBounds a) := by
  unfold State.memRead
  rw [if_pos outside]

/-- A state with the same configuration and memory reads the same bytes. -/
theorem byteAt_congr {s t : State} (sameConfig : t.config = s.config) (sameMemory : t.memory = s.memory) (a : Nat) :
    t.byteAt a = s.byteAt a := by
  unfold State.byteAt
  rw [sameConfig, sameMemory]

theorem memRead_congr {s t : State} (sameConfig : t.config = s.config) (sameMemory : t.memory = s.memory) (a : Nat) :
    t.memRead a = s.memRead a := by
  unfold State.memRead
  rw [byteAt_congr sameConfig sameMemory]

/-! ### Call stack -/

theorem push_ok (s : State) (w : Word) (h : s.sp.val < 16) :
    s.push w = .ok { s with stack := s.stack.set s.sp.val w h, sp := ⟨s.sp.val + 1, by omega⟩ } := by
  unfold State.push
  rw [dif_pos h]

theorem push_full (s : State) (w : Word) (h : s.sp.val = 16) : s.push w = .error .stackOverflow := by
  unfold State.push
  rw [dif_neg (by omega)]

theorem pop_ok (s : State) (h : s.sp.val ≠ 0) :
    s.pop = .ok (s.stack[s.sp.val - 1]'(by omega), { s with sp := ⟨s.sp.val - 1, by omega⟩ }) := by
  unfold State.pop
  rw [dif_neg h]

theorem pop_empty (s : State) (h : s.sp.val = 0) : s.pop = .error .stackUnderflow := by
  unfold State.pop
  rw [dif_pos h]

/-! ### Keypad -/

/-- A key after a key event. -/
theorem key_withKey (s : State) (k j : Nibble) (p : Bool) :
    (s.withKey k p).key j = if k = j then p else s.key j := by
  unfold State.key State.withKey
  by_cases h : k = j
  · subst h
    simp
  · have : k.toNat ≠ j.toNat := fun e => h (BitVec.eq_of_toNat_eq e)
    simp [h, this]

/-- The key that LD_VX_KEY takes is pressed, and no smaller one is. -/
theorem lowestKey_some {s : State} {k : Nibble} (h : s.lowestKey = some k) :
    s.key k = true ∧ ∀ j : Nibble, j.toNat < k.toNat → s.key j = false := by
  unfold State.lowestKey at h
  rw [List.find?_eq_some_iff_getElem] at h
  obtain ⟨pressed, n, inRange, isK, smaller⟩ := h
  simp only [List.length_map, List.length_range] at inRange
  simp only [List.getElem_map, List.getElem_range] at isK smaller
  subst isK
  refine ⟨pressed, fun j lt => ?_⟩
  rw [toNat_ofNat_four inRange] at lt
  have := smaller j.toNat lt
  simpa using this

/-- Without a pressed key there is none to take. -/
theorem lowestKey_none {s : State} : s.lowestKey = none ↔ ∀ k : Nibble, s.key k = false := by
  unfold State.lowestKey
  rw [List.find?_eq_none]
  constructor
  · intro h k
    have := h k (List.mem_map.mpr ⟨k.toNat, List.mem_range.mpr k.toNat_lt_sixteen, by simp⟩)
    simpa using this
  · intro h k _
    simp [h k]

/-! ### Framebuffer -/

/-- A pixel after a toggle. -/
theorem pixel_toggle (fb : Framebuffer) (p q : Fin 64 × Fin 32) :
    Framebuffer.pixel (Framebuffer.toggle fb p) q = (Framebuffer.pixel fb q ^^ decide (p = q)) := by
  obtain ⟨px, py⟩ := p
  obtain ⟨qx, qy⟩ := q
  unfold Framebuffer.pixel Framebuffer.toggle
  by_cases hy : py = qy
  · subst hy
    by_cases hx : px = qx
    · subst hx
      simp
    · have : px.val ≠ qx.val := fun e => hx (Fin.ext e)
      simp [hx, this]
  · have : py.val ≠ qy.val := fun e => hy (Fin.ext e)
    simp [hy, this]

@[simp] theorem pixel_clear (p : Fin 64 × Fin 32) : Framebuffer.pixel Framebuffer.clear p = false := by
  simp [Framebuffer.pixel, Framebuffer.clear]

/-- A pixel after drawing: flipped when it is one of the drawn positions, which are all different. -/
theorem pixel_drawPixels (ps : List (Fin 64 × Fin 32)) (fb : Framebuffer) (collided : Bool) (q : Fin 64 × Fin 32)
    (distinct : ps.Nodup) :
    Framebuffer.pixel (drawPixels ps (fb, collided)).1 q = (Framebuffer.pixel fb q ^^ decide (q ∈ ps)) := by
  induction ps generalizing fb collided with
  | nil => simp [drawPixels]
  | cons p ps ih =>
    rw [List.nodup_cons] at distinct
    rw [drawPixels, ih _ _ distinct.2, pixel_toggle]
    by_cases h : p = q
    · subst h
      simp [distinct.1]
    · have h' : q ≠ p := fun e => h e.symm
      simp [h, h']

/-- The collision flag after drawing: some drawn position was lit before. -/
theorem collided_drawPixels (ps : List (Fin 64 × Fin 32)) (fb : Framebuffer) (collided : Bool)
    (distinct : ps.Nodup) :
    (drawPixels ps (fb, collided)).2 = (collided || ps.any fun p => Framebuffer.pixel fb p) := by
  induction ps generalizing fb collided with
  | nil => simp [drawPixels]
  | cons p ps ih =>
    rw [List.nodup_cons] at distinct
    rw [drawPixels, ih _ _ distinct.2, List.any_cons, Bool.or_assoc]
    have same : ∀ q ∈ ps, Framebuffer.pixel (Framebuffer.toggle fb p) q = Framebuffer.pixel fb q := fun q hq => by
      have : p ≠ q := fun e => distinct.1 (e ▸ hq)
      simp [pixel_toggle, this]
    have anySame : (ps.any fun q => Framebuffer.pixel (Framebuffer.toggle fb p) q) =
        ps.any fun q => Framebuffer.pixel fb q := by
      rw [Bool.eq_iff_iff, List.any_eq_true, List.any_eq_true]
      exact ⟨fun ⟨q, hq, lit⟩ => ⟨q, hq, same q hq ▸ lit⟩, fun ⟨q, hq, lit⟩ => ⟨q, hq, (same q hq).symm ▸ lit⟩⟩
    rw [anySame]

end Sys2Proof.Machine
end

