-- ==== Sys2Proof/Laws/Step.lean ====
section
/-! SUPPORT. What a fetch, an issue and a step can do, each said once, and what withFetchWord leaves. -/

namespace Sys2Proof.Machine

/-- PC fails the alignment check. -/
abbrev State.Misaligned (s : State) : Prop := s.config.pcAlignCheck = true ∧ s.pc.getLsbD 0 = true

/-- Everything a fetch can answer, in the order of its checks. -/
theorem fetch_cases (s : State) :
    (memSize ≤ s.pc.toNat ∧ fetch s = .error (.memoryOutOfBounds s.pc.toNat)) ∨
    (s.pc.toNat + 1 = memSize ∧ fetch s = .error (.memoryOutOfBounds (s.pc.toNat + 1))) ∨
    (s.pc.toNat + 1 < memSize ∧ s.Misaligned ∧ fetch s = .error (.misalignedFetch s.pc)) ∨
    (s.pc.toNat + 1 < memSize ∧ ¬ s.Misaligned ∧ fetch s = .ok (s.opcodeAt, s.jump (s.pc + 2))) := by
  rcases Nat.lt_trichotomy (s.pc.toNat + 1) memSize with inside | last | beyond
  · by_cases odd : s.Misaligned
    · refine .inr (.inr (.inl ⟨inside, odd, ?_⟩))
      simp only [fetch, memRead_ok s (show s.pc.toNat < memSize by omega), memRead_ok s inside]
      rw [if_pos (by rw [Bool.and_eq_true]; exact odd)]
    · refine .inr (.inr (.inr ⟨inside, odd, ?_⟩))
      simp only [fetch, memRead_ok s (show s.pc.toNat < memSize by omega), memRead_ok s inside]
      rw [if_neg (by rw [Bool.and_eq_true]; exact odd)]
      rfl
  · refine .inr (.inl ⟨last, ?_⟩)
    simp only [fetch, memRead_ok s (show s.pc.toNat < memSize by omega), memRead_error s (Nat.le_of_eq last.symm)]
  · refine .inl ⟨by omega, ?_⟩
    simp only [fetch, memRead_error s (show memSize ≤ s.pc.toNat by omega)]

/-- When a step reaches an instruction: the block runs, PC is fetchable, and its opcode decodes to that instruction. -/
theorem issue_executes {s t : State} {i : Instr} (h : issue s = .executes i t) :
    s.runState = .running ∧ s.pc.toNat + 1 < memSize ∧ ¬ s.Misaligned ∧ decodeWord s.opcodeAt = .ok i ∧
      t = s.fetched := by
  unfold issue at h
  split at h
  · cases h
  · rename_i running
    rcases fetch_cases s.clearOutputs with ⟨_, e⟩ | ⟨_, e⟩ | ⟨_, _, e⟩ | ⟨inside, even, e⟩ <;> simp only [e] at h
    · cases h
    · cases h
    · cases h
    · split at h
      · cases h
      · rename_i decoded
        cases h
        exact ⟨running, inside, even, decoded, rfl⟩

/-- The converse of `issue_executes`. -/
theorem issue_of_decodes {s : State} {i : Instr} (running : s.runState = .running) (inside : s.pc.toNat + 1 < memSize)
    (even : ¬ s.Misaligned) (decoded : decodeWord s.opcodeAt = .ok i) : issue s = .executes i s.fetched := by
  have fetched : fetch s.clearOutputs = .ok (s.opcodeAt, s.clearOutputs.jump (s.pc + 2)) := by
    rcases fetch_cases s.clearOutputs with ⟨out, _⟩ | ⟨out, _⟩ | ⟨_, odd, _⟩ | ⟨_, _, e⟩
    · simp only [clearOutputs_pc] at out
      omega
    · simp only [clearOutputs_pc] at out
      omega
    · exact absurd odd even
    · exact e
  simp only [issue, running, fetched, decoded]
  rfl

/-- When a step executes nothing: the block is halted already, or a fetch halt leaves PC, or an unknown opcode halts
after the fetch. -/
theorem issue_stays {s t : State} (h : issue s = .stays t) :
    (∃ r, s.runState = .halted r ∧ t = s.clearOutputs) ∨
    (∃ r, s.runState = .running ∧ fetch s.clearOutputs = .error r ∧ t = s.clearOutputs.halt r) ∨
    (∃ e, s.runState = .running ∧ s.pc.toNat + 1 < memSize ∧ ¬ s.Misaligned ∧ decodeWord s.opcodeAt = .error e ∧
      t = s.fetched.halt (.invalidOpcode s.opcodeAt)) := by
  unfold issue at h
  split at h
  · rename_i r halted
    cases h
    exact .inl ⟨r, halted, rfl⟩
  · rename_i running
    rcases fetch_cases s.clearOutputs with ⟨_, e⟩ | ⟨_, e⟩ | ⟨_, _, e⟩ | ⟨inside, even, e⟩ <;> simp only [e] at h ⊢
    · cases h
      exact .inr (.inl ⟨_, running, rfl, rfl⟩)
    · cases h
      exact .inr (.inl ⟨_, running, rfl, rfl⟩)
    · cases h
      exact .inr (.inl ⟨_, running, rfl, rfl⟩)
    · split at h
      · rename_i error decoded
        cases h
        exact .inr (.inr ⟨error, running, inside, even, decoded, rfl⟩)
      · cases h

/-- A step is its issue, and the instruction's meaning when there is one. -/
theorem step_of_issue (s : State) :
    (∃ t, issue s = .stays t ∧ step s = .next t) ∨ (∃ i t, issue s = .executes i t ∧ step s = exec i t) := by
  unfold step
  cases h : issue s with
  | stays t => exact .inl ⟨t, rfl, rfl⟩
  | executes i t => exact .inr ⟨i, t, rfl, rfl⟩

/-- `withFetchWord` changes memory, the run state and PC only. -/
theorem withFetchWord_frame (s : State) (nbits w : Nat) :
    s.withFetchWord nbits w =
      { s with memory := (s.withFetchWord nbits w).memory, runState := .running,
               pc := if fetchable s then s.pc else BitVec.ofNat 16 romBase } := by
  unfold State.withFetchWord placeForFetch
  rw [setBytes_frame]

end Sys2Proof.Machine
end

