-- ==== Sys2Proof/Laws/Events.lean ====
section
/-! SUPPORT. What each host event can do, each said once. -/

namespace Sys2Proof.Machine

/-! ### Runs -/

/-- A run peels off its first event. -/
theorem runEvents_cons {e : HostEvent} {s u : State} (h : handle e s = .next u) (rest : List HostEvent) :
    runEvents (e :: rest) s = runEvents rest u := by
  rw [runEvents, h]

/-! ### Steps of a halted block -/

/-- A halted block's step clears the outputs (60_exceptions.md R358). -/
theorem step_halted {s : State} {r : HaltReason} (h : s.runState = .halted r) : step s = .next s.clearOutputs := by
  simp only [step, issue, h]

/-! ### Ticks -/

theorem tick_running {s : State} (h : s.runState = .running) :
    s.tick = { s with dt := decremented s.dt, st := decremented s.st } := by
  simp only [State.tick, h]

theorem tick_halted {s : State} {r : HaltReason} (h : s.runState = .halted r) : s.tick = s := by
  simp only [State.tick, h]

theorem toNat_decremented (timer : Byte) : (decremented timer).toNat = timer.toNat - 1 := by
  unfold decremented
  split <;> bv_omega

/-! ### Resets -/

/-- A reset with a ROM that fits is the reset state but for memory and what the host owns. -/
theorem resetWith_fits (s : State) {rom : List Byte} (fits : rom.length ≤ 3584) :
    s.resetWith rom =
      { State.reset with config := s.config, rngSupply := s.rngSupply, rngDrawn := s.rngDrawn,
                         memory := (s.resetWith rom).memory } := by
  unfold State.resetWith State.loadRom
  rw [if_neg (by simp only [maxRom, memSize, romBase]; omega), setBytes_frame]

/-- A reset with a ROM that fits leaves every byte as `resetByte` says. -/
theorem byteAt_resetWith (s : State) {rom : List Byte} (fits : rom.length ≤ 3584) (a : Nat) :
    (s.resetWith rom).byteAt a = resetByte s.config rom a := by
  unfold State.resetWith State.loadRom
  rw [if_neg (by simp only [maxRom, memSize, romBase]; omega),
    byteAt_setBytes _ _ _ _ (by simp only [memSize, romBase]; omega) rfl]
  rfl

/-- A reset with a ROM that is too long halts the reset state. -/
theorem resetWith_oversized (s : State) {rom : List Byte} (long : 3584 < rom.length) :
    s.resetWith rom =
      { State.reset with config := s.config, rngSupply := s.rngSupply, rngDrawn := s.rngDrawn,
                         runState := .halted (.romTooLarge rom.length) } := by
  unfold State.resetWith State.loadRom
  rw [if_pos (by simp only [maxRom, memSize, romBase]; omega)]
  rfl

/-- Every reset keeps the canonical form of memory. -/
theorem resetWith_wf (s : State) (rom : List Byte) : (s.resetWith rom).MemoryWf := by
  unfold State.resetWith State.loadRom
  split
  · rfl
  · rename_i fits
    have wf := setBytes_wf rom
      { State.reset with config := s.config, rngSupply := s.rngSupply, rngDrawn := s.rngDrawn } romBase
      (by simp only [maxRom, romBase, memSize] at *; omega) rfl
    rw [State.MemoryWf, setBytes_frame]
    exact wf

end Sys2Proof.Machine
end

