-- ==== Sys2Proof/Laws/Exec.lean ====
section
/-! SUPPORT. What an instruction can do, said once: it always answers a next state, and that state is either the halt of
its own check or a state that runs on. The words of Safety in terms of the step's laws. -/

namespace Sys2Proof.Machine

/-! ### The words of Safety -/

theorem misaligned_iff (s : State) : s.Misaligned ↔ s.config.pcAlignCheck = true ∧ s.pc.toNat % 2 = 1 := by
  have bit : s.pc.getLsbD 0 = decide (s.pc.toNat % 2 = 1) := by simp [BitVec.getLsbD, Nat.testBit_zero]
  unfold State.Misaligned
  rw [bit, decide_eq_true_eq]

theorem fetchHalts_iff (s : State) : s.FetchHalts ↔ ¬ (s.pc.toNat + 1 < memSize ∧ ¬ s.Misaligned) := by
  rw [misaligned_iff]
  unfold State.FetchHalts memSize
  constructor
  · rintro (out | odd) ⟨inside, even⟩
    · omega
    · exact even odd
  · intro h
    by_cases inside : s.pc.toNat + 1 < 4096
    · exact .inr (not_not.1 fun even => h ⟨inside, even⟩)
    · exact .inl (by omega)

/-- `Issues` is what the step's issue computes. -/
theorem issues_iff (s : State) (i : Instr) : s.Issues i ↔ issue s = .executes i s.fetched := by
  constructor
  · rintro ⟨running, fetchable, decoded⟩
    rw [fetchHalts_iff, not_not] at fetchable
    exact issue_of_decodes running fetchable.1 fetchable.2 decoded
  · intro h
    obtain ⟨running, inside, even, decoded, -⟩ := issue_executes h
    exact ⟨running, by rw [fetchHalts_iff, not_not]; exact ⟨inside, even⟩, decoded⟩

theorem issues_of_executes {s t : State} {i : Instr} (h : issue s = .executes i t) : s.Issues i ∧ t = s.fetched := by
  obtain ⟨running, inside, even, decoded, rfl⟩ := issue_executes h
  exact ⟨⟨running, by rw [fetchHalts_iff, not_not]; exact ⟨inside, even⟩, decoded⟩, rfl⟩

/-! ### Key operands -/

theorem byte_gt_0F (b : Byte) : b > 0x0F ↔ 0x0F < b.toNat :=
  ⟨fun h => by simpa [BitVec.lt_def] using h, fun h => by simpa [BitVec.lt_def] using h⟩

theorem keyOperand_ok (s : State) (x k : Nibble) (names : (s.readV x).toNat = k.toNat) : s.keyOperand x = .ok k := by
  have := k.isLt
  unfold State.keyOperand
  rw [if_neg (by rw [byte_gt_0F]; omega)]
  refine congrArg Except.ok (BitVec.eq_of_toNat_eq ?_)
  simp only [BitVec.toNat_setWidth]
  omega

theorem keyOperand_error (s : State) (x : Nibble) (high : 0x0F < (s.readV x).toNat) :
    s.keyOperand x = .error (.keyIndexOutOfRange (s.readV x)) := by
  unfold State.keyOperand
  rw [if_pos ((byte_gt_0F _).2 high)]

/-! ### Completion and halting -/

theorem completeWith_next {α : Type} (s : State) (check : Checked α) (writes : α → State) :
    ∃ t, completeWith s check writes = .next t := by
  cases check <;> exact ⟨_, rfl⟩

/-- Every instruction answers a next state in every state. -/
theorem exec_next (i : Instr) (s : State) : ∃ t, exec i s = .next t := by
  cases i
  case ret | call | drw | skp | sknp | ldBVx | ldIVx | ldVxI => all_goals exact completeWith_next _ _ _
  case ldVxKey x =>
    simp only [exec, execLdVxKey]
    split <;> exact ⟨_, rfl⟩
  all_goals exact ⟨_, rfl⟩

/-! ### The instructions that have a check, or a second outcome: everything each can answer -/

theorem execRet_cases (s : State) :
    (s.sp.val = 0 ∧ execRet s = .next (s.halt .stackUnderflow)) ∨
    (∃ _ : s.sp.val ≠ 0, execRet s =
      .next { s with pc := s.stack[s.sp.val - 1]'(by omega), sp := ⟨s.sp.val - 1, by omega⟩ }) := by
  by_cases empty : s.sp.val = 0
  · exact .inl ⟨empty, by rw [execRet, pop_empty s empty, completeWith_error]⟩
  · exact .inr ⟨empty, by rw [execRet, pop_ok s empty]; rfl⟩

theorem execCall_cases (nnn : Addr12) (s : State) :
    (s.sp.val = 16 ∧ execCall nnn s = .next (s.halt .stackOverflow)) ∨
    (∃ h : s.sp.val < 16, execCall nnn s = .next
      { s with pc := zextAddr nnn, stack := s.stack.set s.sp.val s.pc h, sp := ⟨s.sp.val + 1, by omega⟩ }) := by
  by_cases room : s.sp.val < 16
  · exact .inr ⟨room, by rw [execCall, push_ok s _ room]; rfl⟩
  · have full : s.sp.val = 16 := by have := s.sp.isLt; omega
    exact .inl ⟨full, by rw [execCall, push_full s _ full, completeWith_error]⟩

theorem execSkp_cases (x : Nibble) (s : State) :
    (0x0F < (s.readV x).toNat ∧ execSkp x s = .next (s.halt (.keyIndexOutOfRange (s.readV x)))) ∨
    (∃ k : Nibble, (s.readV x).toNat = k.toNat ∧
      execSkp x s = .next { s with pc := if s.key k then s.pc + 2 else s.pc }) := by
  by_cases high : 0x0F < (s.readV x).toNat
  · exact .inl ⟨high, by rw [execSkp, keyOperand_error s x high, completeWith_error]⟩
  · have named : (s.readV x).toNat = (BitVec.ofNat 4 (s.readV x).toNat).toNat := by rw [toNat_ofNat_four (by omega)]
    exact .inr ⟨_, named, by rw [execSkp, keyOperand_ok s x _ named, completeWith_ok, skipIf_frame]⟩

theorem execSknp_cases (x : Nibble) (s : State) :
    (0x0F < (s.readV x).toNat ∧ execSknp x s = .next (s.halt (.keyIndexOutOfRange (s.readV x)))) ∨
    (∃ k : Nibble, (s.readV x).toNat = k.toNat ∧
      execSknp x s = .next { s with pc := if !s.key k then s.pc + 2 else s.pc }) := by
  by_cases high : 0x0F < (s.readV x).toNat
  · exact .inl ⟨high, by rw [execSknp, keyOperand_error s x high, completeWith_error]⟩
  · have named : (s.readV x).toNat = (BitVec.ofNat 4 (s.readV x).toNat).toNat := by rw [toNat_ofNat_four (by omega)]
    exact .inr ⟨_, named, by rw [execSknp, keyOperand_ok s x _ named, completeWith_ok, skipIf_frame]⟩

theorem execLdVxKey_cases (x : Nibble) (s : State) :
    ((∀ k, s.key k = false) ∧ execLdVxKey x s = .next { s with pc := s.pc - 2, waiting := true }) ∨
    (∃ k, s.key k = true ∧ (∀ j : Nibble, j.toNat < k.toNat → s.key j = false) ∧
      execLdVxKey x s = .next (s.writeV x (k.setWidth 8))) := by
  unfold execLdVxKey
  split
  · rename_i k found
    exact .inr ⟨k, (lowestKey_some found).1, (lowestKey_some found).2, rfl⟩
  · rename_i none
    exact .inl ⟨lowestKey_none.1 none, rfl⟩

theorem execDrw_cases (x y n : Nibble) (s : State) :
    (0 < n.toNat ∧ memSize < s.i.toNat + n.toNat ∧
      execDrw x y n s = .next (s.halt (.memoryOutOfBounds (max s.i.toNat memSize)))) ∨
    ((n.toNat = 0 ∨ s.i.toNat + n.toNat ≤ memSize) ∧
      execDrw x y n s = .next
        (s.afterDraw (s.drawSprite x y ((List.range n.toNat).map fun k => s.byteAt (s.i.toNat + k))))) := by
  by_cases out : 0 < n.toNat ∧ memSize < s.i.toNat + n.toNat
  · exact .inl ⟨out.1, out.2, by rw [execDrw, memReadRange_error s out.1 (by exact out.2)]; rfl⟩
  · have inside : n.toNat = 0 ∨ s.i.toNat + n.toNat ≤ memSize := by omega
    exact .inr ⟨inside, by rw [execDrw, memReadRange_ok s (by exact inside)]; rfl⟩

theorem execLdBVx_cases (x : Nibble) (s : State) :
    (memSize < s.i.toNat + 3 ∧ execLdBVx x s = .next (s.halt (.memoryOutOfBounds (max s.i.toNat memSize)))) ∨
    (s.i.toNat + 3 ≤ memSize ∧ execLdBVx x s = .next (s.setBytes s.i.toNat (bcdDigits (s.readV x)))) := by
  by_cases out : memSize < s.i.toNat + 3
  · exact .inl ⟨out, by rw [execLdBVx, memWriteRange_error s (by simp [bcdDigits]) (by exact out)]; rfl⟩
  · exact .inr ⟨by omega, by rw [execLdBVx, memWriteRange_ok s (.inr (Nat.not_lt.1 out))]; rfl⟩

theorem length_registerBlock (s : State) (x : Nibble) : (s.registerBlock x).length = x.toNat + 1 := by
  simp [State.registerBlock]

theorem execLdIVx_cases (x : Nibble) (s : State) :
    (memSize < s.i.toNat + x.toNat + 1 ∧
      execLdIVx x s = .next (s.halt (.memoryOutOfBounds (max s.i.toNat memSize)))) ∨
    (s.i.toNat + x.toNat + 1 ≤ memSize ∧ execLdIVx x s = .next (s.setBytes s.i.toNat (s.registerBlock x))) := by
  have length := length_registerBlock s x
  by_cases out : memSize < s.i.toNat + x.toNat + 1
  · refine .inl ⟨out, ?_⟩
    rw [execLdIVx, memWriteRange_error s (by omega) (by simp only [State.effectiveAddress]; omega)]
    rfl
  · refine .inr ⟨by omega, ?_⟩
    rw [execLdIVx, memWriteRange_ok s (.inr (by simp only [State.effectiveAddress]; omega))]
    rfl

theorem execLdVxI_cases (x : Nibble) (s : State) :
    (memSize < s.i.toNat + x.toNat + 1 ∧
      execLdVxI x s = .next (s.halt (.memoryOutOfBounds (max s.i.toNat memSize)))) ∨
    (s.i.toNat + x.toNat + 1 ≤ memSize ∧ execLdVxI x s = .next
      (s.writeVsFrom 0 ((List.range (x.toNat + 1)).map fun k => s.byteAt (s.i.toNat + k)))) := by
  by_cases out : memSize < s.i.toNat + x.toNat + 1
  · refine .inl ⟨out, ?_⟩
    rw [execLdVxI, memReadRange_error s (by omega) (by simp only [State.effectiveAddress]; omega)]
    rfl
  · refine .inr ⟨by omega, ?_⟩
    rw [execLdVxI, memReadRange_ok s (.inr (by simp only [State.effectiveAddress]; omega))]
    rfl

/-- An instruction either takes the halt of its own check, writing nothing else, or its check passes and the run state
stays. -/
theorem exec_halts_or_runs (i : Instr) (s t : State) (h : exec i s = .next t) :
    (∃ r, OwnHalt i s r ∧ t = s.halt r) ∨ ((∀ r, ¬ OwnHalt i s r) ∧ t.runState = s.runState) := by
  cases i <;> simp only [exec] at h
  case ret =>
    rcases execRet_cases s with ⟨empty, e⟩ | ⟨some, e⟩ <;> rw [e] at h <;> cases h
    · exact .inl ⟨_, ⟨empty, rfl⟩, rfl⟩
    · exact .inr ⟨fun r q => some q.1, rfl⟩
  case call nnn =>
    rcases execCall_cases nnn s with ⟨full, e⟩ | ⟨room, e⟩ <;> rw [e] at h <;> cases h
    · exact .inl ⟨_, ⟨full, rfl⟩, rfl⟩
    · exact .inr ⟨fun r q => by have := q.1; omega, rfl⟩
  case skp x =>
    rcases execSkp_cases x s with ⟨high, e⟩ | ⟨k, low, e⟩ <;> rw [e] at h <;> cases h
    · exact .inl ⟨_, ⟨high, rfl⟩, rfl⟩
    · exact .inr ⟨fun r q => by have := q.1; omega, rfl⟩
  case sknp x =>
    rcases execSknp_cases x s with ⟨high, e⟩ | ⟨k, low, e⟩ <;> rw [e] at h <;> cases h
    · exact .inl ⟨_, ⟨high, rfl⟩, rfl⟩
    · exact .inr ⟨fun r q => by have := q.1; omega, rfl⟩
  case drw x y n =>
    rcases execDrw_cases x y n s with ⟨some, out, e⟩ | ⟨inside, e⟩ <;> rw [e] at h <;> cases h
    · exact .inl ⟨_, ⟨some, out, rfl⟩, rfl⟩
    · exact .inr ⟨fun r q => by have := q.1; have : 4096 < _ := q.2.1; simp only [memSize] at inside; omega, rfl⟩
  case ldBVx x =>
    rcases execLdBVx_cases x s with ⟨out, e⟩ | ⟨inside, e⟩ <;> rw [e] at h <;> cases h
    · exact .inl ⟨_, ⟨out, rfl⟩, rfl⟩
    · exact .inr ⟨fun r q => Nat.not_lt.2 inside q.1, by rw [setBytes_frame]⟩
  case ldIVx x =>
    rcases execLdIVx_cases x s with ⟨out, e⟩ | ⟨inside, e⟩ <;> rw [e] at h <;> cases h
    · exact .inl ⟨_, ⟨out, rfl⟩, rfl⟩
    · exact .inr ⟨fun r q => Nat.not_lt.2 inside q.1, by rw [setBytes_frame]⟩
  case ldVxI x =>
    rcases execLdVxI_cases x s with ⟨out, e⟩ | ⟨inside, e⟩ <;> rw [e] at h <;> cases h
    · exact .inl ⟨_, ⟨out, rfl⟩, rfl⟩
    · exact .inr ⟨fun r q => Nat.not_lt.2 inside q.1, by rw [writeVsFrom_frame]⟩
  case ldVxKey x =>
    rcases execLdVxKey_cases x s with ⟨-, e⟩ | ⟨k, -, -, e⟩ <;> rw [e] at h <;> cases h <;>
      exact .inr ⟨fun r q => q, rfl⟩
  case seVxKk x kk =>
    rw [execSeVxKk, skipIf_frame] at h
    cases h
    exact .inr ⟨fun r q => q, rfl⟩
  case sneVxKk x kk =>
    rw [execSneVxKk, skipIf_frame] at h
    cases h
    exact .inr ⟨fun r q => q, rfl⟩
  case seVxVy x y =>
    rw [execSeVxVy, skipIf_frame] at h
    cases h
    exact .inr ⟨fun r q => q, rfl⟩
  case sneVxVy x y =>
    rw [execSneVxVy, skipIf_frame] at h
    cases h
    exact .inr ⟨fun r q => q, rfl⟩
  case rnd x kk =>
    rw [execRnd, drawByte_frame] at h
    cases h
    exact .inr ⟨fun r q => q, rfl⟩
  all_goals
    cases h
    exact .inr ⟨fun r q => q, rfl⟩

end Sys2Proof.Machine
end

