-- ==== Sys2Proof/Laws/PerInstr.lean ====
section
/-! SUPPORT. The statements made of every instruction as syntax, one lemma per constructor. -/

namespace Sys2Proof.Laws.LegalEncoding

/-- The encoding of the instruction is a legal word of 30_encoding.md R118. -/
def Statement (i : Instr) : Prop := legalWord (encode i) = true

theorem cls : Statement .cls := by
  unfold Statement
  decide
theorem ret : Statement .ret := by
  unfold Statement
  decide
theorem jp (nnn : Addr12) : Statement (.jp nnn) := by
  simp [Statement, encode, legalWord_fields, fieldOp_formatA]
theorem call (nnn : Addr12) : Statement (.call nnn) := by
  simp [Statement, encode, legalWord_fields, fieldOp_formatA]
theorem seVxKk (x : Nibble) (kk : Byte) : Statement (.seVxKk x kk) := by
  simp [Statement, encode, legalWord_fields, fieldOp_formatXK]
theorem sneVxKk (x : Nibble) (kk : Byte) : Statement (.sneVxKk x kk) := by
  simp [Statement, encode, legalWord_fields, fieldOp_formatXK]
theorem seVxVy (x y : Nibble) : Statement (.seVxVy x y) := by
  simp [Statement, encode, legalWord_fields, fieldOp_formatXYN, fieldN_formatXYN]
theorem ldVxKk (x : Nibble) (kk : Byte) : Statement (.ldVxKk x kk) := by
  simp [Statement, encode, legalWord_fields, fieldOp_formatXK]
theorem addVxKk (x : Nibble) (kk : Byte) : Statement (.addVxKk x kk) := by
  simp [Statement, encode, legalWord_fields, fieldOp_formatXK]
theorem ldVxVy (x y : Nibble) : Statement (.ldVxVy x y) := by
  simp [Statement, encode, legalWord_fields, fieldOp_formatXYN, fieldN_formatXYN]
theorem orVxVy (x y : Nibble) : Statement (.orVxVy x y) := by
  simp [Statement, encode, legalWord_fields, fieldOp_formatXYN, fieldN_formatXYN]
theorem andVxVy (x y : Nibble) : Statement (.andVxVy x y) := by
  simp [Statement, encode, legalWord_fields, fieldOp_formatXYN, fieldN_formatXYN]
theorem xorVxVy (x y : Nibble) : Statement (.xorVxVy x y) := by
  simp [Statement, encode, legalWord_fields, fieldOp_formatXYN, fieldN_formatXYN]
theorem addVxVy (x y : Nibble) : Statement (.addVxVy x y) := by
  simp [Statement, encode, legalWord_fields, fieldOp_formatXYN, fieldN_formatXYN]
theorem subVxVy (x y : Nibble) : Statement (.subVxVy x y) := by
  simp [Statement, encode, legalWord_fields, fieldOp_formatXYN, fieldN_formatXYN]
theorem shrVxVy (x y : Nibble) : Statement (.shrVxVy x y) := by
  simp [Statement, encode, legalWord_fields, fieldOp_formatXYN, fieldN_formatXYN]
theorem subnVxVy (x y : Nibble) : Statement (.subnVxVy x y) := by
  simp [Statement, encode, legalWord_fields, fieldOp_formatXYN, fieldN_formatXYN]
theorem shlVxVy (x y : Nibble) : Statement (.shlVxVy x y) := by
  simp [Statement, encode, legalWord_fields, fieldOp_formatXYN, fieldN_formatXYN]
theorem sneVxVy (x y : Nibble) : Statement (.sneVxVy x y) := by
  simp [Statement, encode, legalWord_fields, fieldOp_formatXYN, fieldN_formatXYN]
theorem ldI (nnn : Addr12) : Statement (.ldI nnn) := by
  simp [Statement, encode, legalWord_fields, fieldOp_formatA]
theorem jpV0 (nnn : Addr12) : Statement (.jpV0 nnn) := by
  simp [Statement, encode, legalWord_fields, fieldOp_formatA]
theorem rnd (x : Nibble) (kk : Byte) : Statement (.rnd x kk) := by
  simp [Statement, encode, legalWord_fields, fieldOp_formatXK]
theorem drw (x y n : Nibble) : Statement (.drw x y n) := by
  simp [Statement, encode, legalWord_fields, fieldOp_formatXYN]
theorem skp (x : Nibble) : Statement (.skp x) := by
  simp [Statement, encode, legalWord_fields, fieldOp_formatXK, fieldKk_formatXK]
theorem sknp (x : Nibble) : Statement (.sknp x) := by
  simp [Statement, encode, legalWord_fields, fieldOp_formatXK, fieldKk_formatXK]
theorem ldVxDt (x : Nibble) : Statement (.ldVxDt x) := by
  simp [Statement, encode, legalWord_fields, fieldOp_formatXK, fieldKk_formatXK]
theorem ldVxKey (x : Nibble) : Statement (.ldVxKey x) := by
  simp [Statement, encode, legalWord_fields, fieldOp_formatXK, fieldKk_formatXK]
theorem ldDtVx (x : Nibble) : Statement (.ldDtVx x) := by
  simp [Statement, encode, legalWord_fields, fieldOp_formatXK, fieldKk_formatXK]
theorem ldStVx (x : Nibble) : Statement (.ldStVx x) := by
  simp [Statement, encode, legalWord_fields, fieldOp_formatXK, fieldKk_formatXK]
theorem addIVx (x : Nibble) : Statement (.addIVx x) := by
  simp [Statement, encode, legalWord_fields, fieldOp_formatXK, fieldKk_formatXK]
theorem ldFVx (x : Nibble) : Statement (.ldFVx x) := by
  simp [Statement, encode, legalWord_fields, fieldOp_formatXK, fieldKk_formatXK]
theorem ldBVx (x : Nibble) : Statement (.ldBVx x) := by
  simp [Statement, encode, legalWord_fields, fieldOp_formatXK, fieldKk_formatXK]
theorem ldIVx (x : Nibble) : Statement (.ldIVx x) := by
  simp [Statement, encode, legalWord_fields, fieldOp_formatXK, fieldKk_formatXK]
theorem ldVxI (x : Nibble) : Statement (.ldVxI x) := by
  simp [Statement, encode, legalWord_fields, fieldOp_formatXK, fieldKk_formatXK]

end Sys2Proof.Laws.LegalEncoding

namespace Sys2Proof.Laws.MapRow

/-- The row of R116 with the given number (from 0) selects the word and reads back the instruction. -/
def RowReads (k : Fin opcodeMap.length) (w : Word) (i : Instr) : Prop :=
  opcodeMap[k].selects w = true ∧ opcodeMap[k].build w = i

/-- The encoding of the instruction selects a row of the opcode map that reads it back (30_encoding.md R116). -/
def Statement (i : Instr) : Prop := ∃ k : Fin opcodeMap.length, RowReads k (encode i) i

theorem selects_F000 (op : Nibble) (w : Word) : (w &&& 0xF000 == op ++ 0x000#12) = (fieldOp w == op) := by
  rw [and_F000, Bool.eq_iff_iff, beq_iff_eq, beq_iff_eq]
  exact ⟨fun h => by simpa [fieldOp_formatA] using congrArg fieldOp h, fun h => by rw [h]⟩

theorem selects_F00F (op n : Nibble) (w : Word) :
    (w &&& 0xF00F == op ++ 0x0#4 ++ 0x0#4 ++ n) = (fieldOp w == op && fieldN w == n) := by
  rw [and_F00F, Bool.eq_iff_iff, Bool.and_eq_true, beq_iff_eq, beq_iff_eq, beq_iff_eq]
  have split : fieldOp w ++ 0x00#8 ++ fieldN w = fieldOp w ++ 0x0#4 ++ 0x0#4 ++ fieldN w := by
    apply BitVec.eq_of_toNat_eq
    rw [toNat_formatXYN, toNat_concat, toNat_concat]
    simp
    omega
  rw [split]
  exact ⟨fun h => ⟨by simpa [fieldOp_formatXYN] using congrArg fieldOp h,
    by simpa [fieldN_formatXYN] using congrArg fieldN h⟩, fun h => by rw [h.1, h.2]⟩

theorem selects_F0FF (op : Nibble) (kk : Byte) (w : Word) :
    (w &&& 0xF0FF == op ++ 0x0#4 ++ kk) = (fieldOp w == op && fieldKk w == kk) := by
  rw [and_F0FF, Bool.eq_iff_iff, Bool.and_eq_true, beq_iff_eq, beq_iff_eq, beq_iff_eq]
  exact ⟨fun h => ⟨by simpa [fieldOp_formatXK] using congrArg fieldOp h,
    by simpa [fieldKk_formatXK] using congrArg fieldKk h⟩, fun h => by rw [h.1, h.2]⟩

theorem cls : Statement .cls := ⟨⟨0, by decide⟩, by decide, rfl⟩
theorem ret : Statement .ret := ⟨⟨1, by decide⟩, by decide, rfl⟩
theorem jp (nnn : Addr12) : Statement (.jp nnn) :=
  ⟨⟨2, by decide⟩, (selects_F000 0x1 _).trans (by simp [encode, fieldOp_formatA]),
    by simp [opcodeMap, opcodeRowsLow, opcodeRowsAlu, opcodeRowsMiddle, opcodeRowsMisc, encode,
      fieldNnn_formatA]⟩
theorem call (nnn : Addr12) : Statement (.call nnn) :=
  ⟨⟨3, by decide⟩, (selects_F000 0x2 _).trans (by simp [encode, fieldOp_formatA]),
    by simp [opcodeMap, opcodeRowsLow, opcodeRowsAlu, opcodeRowsMiddle, opcodeRowsMisc, encode,
      fieldNnn_formatA]⟩
theorem seVxKk (x : Nibble) (kk : Byte) : Statement (.seVxKk x kk) :=
  ⟨⟨4, by decide⟩, (selects_F000 0x3 _).trans (by simp [encode, fieldOp_formatXK]),
    by simp [opcodeMap, opcodeRowsLow, opcodeRowsAlu, opcodeRowsMiddle, opcodeRowsMisc, encode,
      fieldX_formatXK, fieldKk_formatXK]⟩
theorem sneVxKk (x : Nibble) (kk : Byte) : Statement (.sneVxKk x kk) :=
  ⟨⟨5, by decide⟩, (selects_F000 0x4 _).trans (by simp [encode, fieldOp_formatXK]),
    by simp [opcodeMap, opcodeRowsLow, opcodeRowsAlu, opcodeRowsMiddle, opcodeRowsMisc, encode,
      fieldX_formatXK, fieldKk_formatXK]⟩
theorem seVxVy (x y : Nibble) : Statement (.seVxVy x y) :=
  ⟨⟨6, by decide⟩, (selects_F00F 0x5 0x0 _).trans (by simp [encode, fieldOp_formatXYN, fieldN_formatXYN]),
    by simp [opcodeMap, opcodeRowsLow, opcodeRowsAlu, opcodeRowsMiddle, opcodeRowsMisc, encode,
      fieldX_formatXYN, fieldY_formatXYN]⟩
theorem ldVxKk (x : Nibble) (kk : Byte) : Statement (.ldVxKk x kk) :=
  ⟨⟨7, by decide⟩, (selects_F000 0x6 _).trans (by simp [encode, fieldOp_formatXK]),
    by simp [opcodeMap, opcodeRowsLow, opcodeRowsAlu, opcodeRowsMiddle, opcodeRowsMisc, encode,
      fieldX_formatXK, fieldKk_formatXK]⟩
theorem addVxKk (x : Nibble) (kk : Byte) : Statement (.addVxKk x kk) :=
  ⟨⟨8, by decide⟩, (selects_F000 0x7 _).trans (by simp [encode, fieldOp_formatXK]),
    by simp [opcodeMap, opcodeRowsLow, opcodeRowsAlu, opcodeRowsMiddle, opcodeRowsMisc, encode,
      fieldX_formatXK, fieldKk_formatXK]⟩
theorem ldVxVy (x y : Nibble) : Statement (.ldVxVy x y) :=
  ⟨⟨9, by decide⟩, (selects_F00F 0x8 0x0 _).trans (by simp [encode, fieldOp_formatXYN, fieldN_formatXYN]),
    by simp [opcodeMap, opcodeRowsLow, opcodeRowsAlu, opcodeRowsMiddle, opcodeRowsMisc, encode,
      fieldX_formatXYN, fieldY_formatXYN]⟩
theorem orVxVy (x y : Nibble) : Statement (.orVxVy x y) :=
  ⟨⟨10, by decide⟩, (selects_F00F 0x8 0x1 _).trans (by simp [encode, fieldOp_formatXYN, fieldN_formatXYN]),
    by simp [opcodeMap, opcodeRowsLow, opcodeRowsAlu, opcodeRowsMiddle, opcodeRowsMisc, encode,
      fieldX_formatXYN, fieldY_formatXYN]⟩
theorem andVxVy (x y : Nibble) : Statement (.andVxVy x y) :=
  ⟨⟨11, by decide⟩, (selects_F00F 0x8 0x2 _).trans (by simp [encode, fieldOp_formatXYN, fieldN_formatXYN]),
    by simp [opcodeMap, opcodeRowsLow, opcodeRowsAlu, opcodeRowsMiddle, opcodeRowsMisc, encode,
      fieldX_formatXYN, fieldY_formatXYN]⟩
theorem xorVxVy (x y : Nibble) : Statement (.xorVxVy x y) :=
  ⟨⟨12, by decide⟩, (selects_F00F 0x8 0x3 _).trans (by simp [encode, fieldOp_formatXYN, fieldN_formatXYN]),
    by simp [opcodeMap, opcodeRowsLow, opcodeRowsAlu, opcodeRowsMiddle, opcodeRowsMisc, encode,
      fieldX_formatXYN, fieldY_formatXYN]⟩
theorem addVxVy (x y : Nibble) : Statement (.addVxVy x y) :=
  ⟨⟨13, by decide⟩, (selects_F00F 0x8 0x4 _).trans (by simp [encode, fieldOp_formatXYN, fieldN_formatXYN]),
    by simp [opcodeMap, opcodeRowsLow, opcodeRowsAlu, opcodeRowsMiddle, opcodeRowsMisc, encode,
      fieldX_formatXYN, fieldY_formatXYN]⟩
theorem subVxVy (x y : Nibble) : Statement (.subVxVy x y) :=
  ⟨⟨14, by decide⟩, (selects_F00F 0x8 0x5 _).trans (by simp [encode, fieldOp_formatXYN, fieldN_formatXYN]),
    by simp [opcodeMap, opcodeRowsLow, opcodeRowsAlu, opcodeRowsMiddle, opcodeRowsMisc, encode,
      fieldX_formatXYN, fieldY_formatXYN]⟩
theorem shrVxVy (x y : Nibble) : Statement (.shrVxVy x y) :=
  ⟨⟨15, by decide⟩, (selects_F00F 0x8 0x6 _).trans (by simp [encode, fieldOp_formatXYN, fieldN_formatXYN]),
    by simp [opcodeMap, opcodeRowsLow, opcodeRowsAlu, opcodeRowsMiddle, opcodeRowsMisc, encode,
      fieldX_formatXYN, fieldY_formatXYN]⟩
theorem subnVxVy (x y : Nibble) : Statement (.subnVxVy x y) :=
  ⟨⟨16, by decide⟩, (selects_F00F 0x8 0x7 _).trans (by simp [encode, fieldOp_formatXYN, fieldN_formatXYN]),
    by simp [opcodeMap, opcodeRowsLow, opcodeRowsAlu, opcodeRowsMiddle, opcodeRowsMisc, encode,
      fieldX_formatXYN, fieldY_formatXYN]⟩
theorem shlVxVy (x y : Nibble) : Statement (.shlVxVy x y) :=
  ⟨⟨17, by decide⟩, (selects_F00F 0x8 0xE _).trans (by simp [encode, fieldOp_formatXYN, fieldN_formatXYN]),
    by simp [opcodeMap, opcodeRowsLow, opcodeRowsAlu, opcodeRowsMiddle, opcodeRowsMisc, encode,
      fieldX_formatXYN, fieldY_formatXYN]⟩
theorem sneVxVy (x y : Nibble) : Statement (.sneVxVy x y) :=
  ⟨⟨18, by decide⟩, (selects_F00F 0x9 0x0 _).trans (by simp [encode, fieldOp_formatXYN, fieldN_formatXYN]),
    by simp [opcodeMap, opcodeRowsLow, opcodeRowsAlu, opcodeRowsMiddle, opcodeRowsMisc, encode,
      fieldX_formatXYN, fieldY_formatXYN]⟩
theorem ldI (nnn : Addr12) : Statement (.ldI nnn) :=
  ⟨⟨19, by decide⟩, (selects_F000 0xA _).trans (by simp [encode, fieldOp_formatA]),
    by simp [opcodeMap, opcodeRowsLow, opcodeRowsAlu, opcodeRowsMiddle, opcodeRowsMisc, encode,
      fieldNnn_formatA]⟩
theorem jpV0 (nnn : Addr12) : Statement (.jpV0 nnn) :=
  ⟨⟨20, by decide⟩, (selects_F000 0xB _).trans (by simp [encode, fieldOp_formatA]),
    by simp [opcodeMap, opcodeRowsLow, opcodeRowsAlu, opcodeRowsMiddle, opcodeRowsMisc, encode,
      fieldNnn_formatA]⟩
theorem rnd (x : Nibble) (kk : Byte) : Statement (.rnd x kk) :=
  ⟨⟨21, by decide⟩, (selects_F000 0xC _).trans (by simp [encode, fieldOp_formatXK]),
    by simp [opcodeMap, opcodeRowsLow, opcodeRowsAlu, opcodeRowsMiddle, opcodeRowsMisc, encode,
      fieldX_formatXK, fieldKk_formatXK]⟩
theorem drw (x y n : Nibble) : Statement (.drw x y n) :=
  ⟨⟨22, by decide⟩, (selects_F000 0xD _).trans (by simp [encode, fieldOp_formatXYN]),
    by simp [opcodeMap, opcodeRowsLow, opcodeRowsAlu, opcodeRowsMiddle, opcodeRowsMisc, encode,
      fieldX_formatXYN, fieldY_formatXYN, fieldN_formatXYN]⟩
theorem skp (x : Nibble) : Statement (.skp x) :=
  ⟨⟨23, by decide⟩, (selects_F0FF 0xE 0x9E _).trans (by simp [encode, fieldOp_formatXK, fieldKk_formatXK]),
    by simp [opcodeMap, opcodeRowsLow, opcodeRowsAlu, opcodeRowsMiddle, opcodeRowsMisc, encode,
      fieldX_formatXK]⟩
theorem sknp (x : Nibble) : Statement (.sknp x) :=
  ⟨⟨24, by decide⟩, (selects_F0FF 0xE 0xA1 _).trans (by simp [encode, fieldOp_formatXK, fieldKk_formatXK]),
    by simp [opcodeMap, opcodeRowsLow, opcodeRowsAlu, opcodeRowsMiddle, opcodeRowsMisc, encode,
      fieldX_formatXK]⟩
theorem ldVxDt (x : Nibble) : Statement (.ldVxDt x) :=
  ⟨⟨25, by decide⟩, (selects_F0FF 0xF 0x07 _).trans (by simp [encode, fieldOp_formatXK, fieldKk_formatXK]),
    by simp [opcodeMap, opcodeRowsLow, opcodeRowsAlu, opcodeRowsMiddle, opcodeRowsMisc, encode,
      fieldX_formatXK]⟩
theorem ldVxKey (x : Nibble) : Statement (.ldVxKey x) :=
  ⟨⟨26, by decide⟩, (selects_F0FF 0xF 0x0A _).trans (by simp [encode, fieldOp_formatXK, fieldKk_formatXK]),
    by simp [opcodeMap, opcodeRowsLow, opcodeRowsAlu, opcodeRowsMiddle, opcodeRowsMisc, encode,
      fieldX_formatXK]⟩
theorem ldDtVx (x : Nibble) : Statement (.ldDtVx x) :=
  ⟨⟨27, by decide⟩, (selects_F0FF 0xF 0x15 _).trans (by simp [encode, fieldOp_formatXK, fieldKk_formatXK]),
    by simp [opcodeMap, opcodeRowsLow, opcodeRowsAlu, opcodeRowsMiddle, opcodeRowsMisc, encode,
      fieldX_formatXK]⟩
theorem ldStVx (x : Nibble) : Statement (.ldStVx x) :=
  ⟨⟨28, by decide⟩, (selects_F0FF 0xF 0x18 _).trans (by simp [encode, fieldOp_formatXK, fieldKk_formatXK]),
    by simp [opcodeMap, opcodeRowsLow, opcodeRowsAlu, opcodeRowsMiddle, opcodeRowsMisc, encode,
      fieldX_formatXK]⟩
theorem addIVx (x : Nibble) : Statement (.addIVx x) :=
  ⟨⟨29, by decide⟩, (selects_F0FF 0xF 0x1E _).trans (by simp [encode, fieldOp_formatXK, fieldKk_formatXK]),
    by simp [opcodeMap, opcodeRowsLow, opcodeRowsAlu, opcodeRowsMiddle, opcodeRowsMisc, encode,
      fieldX_formatXK]⟩
theorem ldFVx (x : Nibble) : Statement (.ldFVx x) :=
  ⟨⟨30, by decide⟩, (selects_F0FF 0xF 0x29 _).trans (by simp [encode, fieldOp_formatXK, fieldKk_formatXK]),
    by simp [opcodeMap, opcodeRowsLow, opcodeRowsAlu, opcodeRowsMiddle, opcodeRowsMisc, encode,
      fieldX_formatXK]⟩
theorem ldBVx (x : Nibble) : Statement (.ldBVx x) :=
  ⟨⟨31, by decide⟩, (selects_F0FF 0xF 0x33 _).trans (by simp [encode, fieldOp_formatXK, fieldKk_formatXK]),
    by simp [opcodeMap, opcodeRowsLow, opcodeRowsAlu, opcodeRowsMiddle, opcodeRowsMisc, encode,
      fieldX_formatXK]⟩
theorem ldIVx (x : Nibble) : Statement (.ldIVx x) :=
  ⟨⟨32, by decide⟩, (selects_F0FF 0xF 0x55 _).trans (by simp [encode, fieldOp_formatXK, fieldKk_formatXK]),
    by simp [opcodeMap, opcodeRowsLow, opcodeRowsAlu, opcodeRowsMiddle, opcodeRowsMisc, encode,
      fieldX_formatXK]⟩
theorem ldVxI (x : Nibble) : Statement (.ldVxI x) :=
  ⟨⟨33, by decide⟩, (selects_F0FF 0xF 0x65 _).trans (by simp [encode, fieldOp_formatXK, fieldKk_formatXK]),
    by simp [opcodeMap, opcodeRowsLow, opcodeRowsAlu, opcodeRowsMiddle, opcodeRowsMisc, encode,
      fieldX_formatXK]⟩

end Sys2Proof.Laws.MapRow
end

