-- ==== Sys2Proof/Laws/Sprite.lean ====
section
/-! SUPPORT. The geometry of a sprite: which bits it has, where they land, and that no pixel is hit twice. -/

namespace Sys2Proof.Machine

/-- A row's drawn columns are its 1 bits, bit 7 first (44_display.md R291). -/
theorem mem_rowColumns (row : Byte) (c : Nat) : c ∈ rowColumns row ↔ c < 8 ∧ row.getLsbD (7 - c) = true := by
  unfold rowColumns
  rw [List.mem_filter, List.mem_range]

/-- The drawn bits of a sprite, row by row. -/
theorem mem_spriteBits (rows : List Byte) (first c r : Nat) :
    (c, r) ∈ spriteBits first rows ↔ ∃ k, ∃ h : k < rows.length, r = first + k ∧ c ∈ rowColumns rows[k] := by
  induction rows generalizing first with
  | nil => simp [spriteBits]
  | cons row rows ih =>
    rw [spriteBits, List.mem_append, ih, List.mem_map]
    constructor
    · rintro (⟨c', h, e⟩ | ⟨k, h, e, m⟩)
      · cases e
        exact ⟨0, by simp, rfl, h⟩
      · exact ⟨k + 1, by simp only [List.length_cons]; omega, by omega, by simpa using m⟩
    · rintro ⟨k, h, e, m⟩
      cases k with
      | zero => exact .inl ⟨c, m, by simp [e]⟩
      | succ k => exact .inr ⟨k, by simp only [List.length_cons] at h; omega, by omega, by simpa using m⟩

theorem nodup_spriteBits (rows : List Byte) (first : Nat) : (spriteBits first rows).Nodup := by
  induction rows generalizing first with
  | nil => simp [spriteBits]
  | cons row rows ih =>
    rw [spriteBits, List.nodup_append]
    refine ⟨?_, ih _, ?_⟩
    · refine List.Nodup.map (fun a b h => by simpa using h) ?_
      unfold rowColumns
      exact List.Nodup.filter _ List.nodup_range
    · rintro ⟨c, r⟩ h ⟨c', r'⟩ h' e
      rw [List.mem_map] at h
      obtain ⟨_, _, here⟩ := h
      rw [mem_spriteBits] at h'
      obtain ⟨k, _, below, _⟩ := h'
      simp only [Prod.mk.injEq] at here e
      omega

/-- Where a bit lands, by the edge mode (44_display.md R293). -/
theorem spriteTarget_eq_some (edge : SpriteEdge) (column row : Nat) (px : Fin 64) (py : Fin 32) :
    spriteTarget edge column row = some (px, py) ↔
      match edge with
      | .wrap => column % 64 = px.val ∧ row % 32 = py.val
      | .clip => column = px.val ∧ row = py.val := by
  unfold spriteTarget
  cases edge with
  | wrap => simp [Prod.ext_iff, Fin.ext_iff]
  | clip =>
    simp only
    split
    · simp [Prod.ext_iff, Fin.ext_iff]
    · rename_i outside
      constructor
      · intro h
        cases h
      · rintro ⟨a, b⟩
        exact absurd ⟨by omega, by omega⟩ outside

/-- Two bits of one sprite that land on the same pixel are the same bit. -/
theorem spriteTarget_inj (edge : SpriteEdge) (x0 y0 c r c' r' : Nat) (p : Fin 64 × Fin 32) (hc : c < 8) (hc' : c' < 8)
    (hr : r < 16) (hr' : r' < 16) (h : spriteTarget edge (x0 + c) (y0 + r) = some p)
    (h' : spriteTarget edge (x0 + c') (y0 + r') = some p) : c = c' ∧ r = r' := by
  obtain ⟨px, py⟩ := p
  rw [spriteTarget_eq_some] at h h'
  cases edge <;> simp only at h h' <;> omega

/-- The pixels a sprite draws on (44_display.md R292). -/
theorem mem_spriteTargets (edge : SpriteEdge) (x0 y0 : Nat) (rows : List Byte) (p : Fin 64 × Fin 32) :
    p ∈ spriteTargets edge x0 y0 rows ↔
      ∃ r c, ∃ h : r < rows.length, c < 8 ∧ rows[r].getLsbD (7 - c) = true ∧
        spriteTarget edge (x0 + c) (y0 + r) = some p := by
  unfold spriteTargets
  rw [List.mem_filterMap]
  constructor
  · rintro ⟨⟨c, r⟩, h, e⟩
    rw [mem_spriteBits] at h
    obtain ⟨k, hk, e', m⟩ := h
    rw [mem_rowColumns] at m
    simp only [Nat.zero_add] at e'
    subst e'
    exact ⟨r, c, hk, m.1, m.2, e⟩
  · rintro ⟨r, c, h, hc, b, e⟩
    exact ⟨(c, r), (mem_spriteBits _ _ _ _).2 ⟨r, h, by omega, (mem_rowColumns _ _).2 ⟨hc, b⟩⟩, e⟩

/-- A sprite of at most 15 rows hits no pixel twice (44_display.md R292). -/
theorem nodup_spriteTargets (edge : SpriteEdge) (x0 y0 : Nat) (rows : List Byte) (small : rows.length < 16) :
    (spriteTargets edge x0 y0 rows).Nodup := by
  unfold spriteTargets
  have bounds : ∀ bit ∈ spriteBits 0 rows, bit.1 < 8 ∧ bit.2 < 16 := by
    rintro ⟨c, r⟩ h
    rw [mem_spriteBits] at h
    obtain ⟨k, hk, e, m⟩ := h
    exact ⟨((mem_rowColumns _ _).1 m).1, by simp only; omega⟩
  have distinct := nodup_spriteBits rows 0
  generalize spriteBits 0 rows = bits at bounds distinct
  induction bits with
  | nil => simp
  | cons bit bits ih =>
    rw [List.nodup_cons] at distinct
    have rest := ih (fun b hb => bounds b (List.mem_cons_of_mem _ hb)) distinct.2
    rw [List.filterMap_cons]
    split
    · exact rest
    · rename_i p hp
      refine List.nodup_cons.2 ⟨fun again => ?_, rest⟩
      rw [List.mem_filterMap] at again
      obtain ⟨bit', mem, hp'⟩ := again
      have b := bounds bit List.mem_cons_self
      have b' := bounds bit' (List.mem_cons_of_mem _ mem)
      have same := spriteTarget_inj edge x0 y0 bit.1 bit.2 bit'.1 bit'.2 p b.1 b'.1 b.2 b'.2 hp hp'
      exact distinct.1 ((Prod.ext same.1 same.2 : bit = bit') ▸ mem)

end Sys2Proof.Machine
end

