-- ==== Sys2Proof/Machine/Assembler.lean ====
section
/-! DEFINITION. The assembler line of each instruction (30_encoding.md R140): a printer only, since the spec defines no
assembler (log 17). Nothing in the machine uses it. -/

namespace Sys2Proof.Machine

/-- One hexadecimal digit. -/
def hexDigit (n : Nat) : String :=
  String.singleton (if n < 10 then Char.ofNat (48 + n) else Char.ofNat (55 + n))

/-- `digits` hexadecimal digits of a number, most significant first. -/
def hexDigits : Nat → Nat → String
  | 0, _ => ""
  | digits + 1, n => hexDigits digits (n / 16) ++ hexDigit (n % 16)

/-- A number operand: hexadecimal with a `0x` prefix, as wide as its field. -/
def hexNumber {bits : Nat} (b : BitVec bits) : String := "0x" ++ hexDigits (bits / 4) b.toNat

/-- A register operand, V0 to VF. -/
def registerName (x : Nibble) : String := "V" ++ hexDigit x.toNat

/-- A mnemonic with one operand. -/
def lineOne (op a : String) : String := op ++ " " ++ a

/-- A mnemonic with two operands. -/
def lineTwo (op a b : String) : String := op ++ " " ++ a ++ ", " ++ b

/-- The line of an instruction, by R140's table. -/
def assemblerLine : Instr → String
  | .cls => "CLS"
  | .ret => "RET"
  | .jp nnn => lineOne "JP" (hexNumber nnn)
  | .call nnn => lineOne "CALL" (hexNumber nnn)
  | .seVxKk x kk => lineTwo "SE" (registerName x) (hexNumber kk)
  | .sneVxKk x kk => lineTwo "SNE" (registerName x) (hexNumber kk)
  | .seVxVy x y => lineTwo "SE" (registerName x) (registerName y)
  | .ldVxKk x kk => lineTwo "LD" (registerName x) (hexNumber kk)
  | .addVxKk x kk => lineTwo "ADD" (registerName x) (hexNumber kk)
  | .ldVxVy x y => lineTwo "LD" (registerName x) (registerName y)
  | .orVxVy x y => lineTwo "OR" (registerName x) (registerName y)
  | .andVxVy x y => lineTwo "AND" (registerName x) (registerName y)
  | .xorVxVy x y => lineTwo "XOR" (registerName x) (registerName y)
  | .addVxVy x y => lineTwo "ADD" (registerName x) (registerName y)
  | .subVxVy x y => lineTwo "SUB" (registerName x) (registerName y)
  | .shrVxVy x y => lineTwo "SHR" (registerName x) (registerName y)
  | .subnVxVy x y => lineTwo "SUBN" (registerName x) (registerName y)
  | .shlVxVy x y => lineTwo "SHL" (registerName x) (registerName y)
  | .sneVxVy x y => lineTwo "SNE" (registerName x) (registerName y)
  | .ldI nnn => lineTwo "LD" "I" (hexNumber nnn)
  | .jpV0 nnn => lineTwo "JP" "V0" (hexNumber nnn)
  | .rnd x kk => lineTwo "RND" (registerName x) (hexNumber kk)
  | .drw x y n => lineTwo "DRW" (registerName x) (registerName y) ++ ", " ++ hexNumber n
  | .skp x => lineOne "SKP" (registerName x)
  | .sknp x => lineOne "SKNP" (registerName x)
  | .ldVxDt x => lineTwo "LD" (registerName x) "DT"
  | .ldVxKey x => lineTwo "LD" (registerName x) "K"
  | .ldDtVx x => lineTwo "LD" "DT" (registerName x)
  | .ldStVx x => lineTwo "LD" "ST" (registerName x)
  | .addIVx x => lineTwo "ADD" "I" (registerName x)
  | .ldFVx x => lineTwo "LD" "F" (registerName x)
  | .ldBVx x => lineTwo "LD" "B" (registerName x)
  | .ldIVx x => lineTwo "LD" "[I]" (registerName x)
  | .ldVxI x => lineTwo "LD" (registerName x) "[I]"

end Sys2Proof.Machine
end

