-- ==== Sys2Proof/Tests/Slice0.lean ====
section
/-! SUPPORT. The model's own tests. Expected values are the spec's: the patterns of 30_encoding.md R116, the illegal
words of R118, and the vectors of 95_test_vectors.md, named in each comment. The last part shows, for every obligation
with hypotheses, a concrete state that meets them. -/

namespace Sys2Proof.Tests

open Sys2Proof Sys2Proof.Machine

/-! ### Decoding and encoding (30_encoding.md) -/

/-- Format O (no operand), each word the pattern of 30_encoding.md R116 with the operand bits filled in. -/
theorem test_decode_format_O :
    decodeTableWord 16 0b0000000011100000 = some .cls ∧
    decodeTableWord 16 0b0000000011101110 = some .ret := by
  decide

theorem test_encode_format_O :
    encode .cls = 0b0000000011100000 ∧
    encode .ret = 0b0000000011101110 := by
  decide

/-- Format A (nnn = 0x9B6), each word the pattern of 30_encoding.md R116 with the operand bits filled in. -/
theorem test_decode_format_A :
    decodeTableWord 16 0b0001100110110110 = some (.jp 0x9B6) ∧
    decodeTableWord 16 0b0010100110110110 = some (.call 0x9B6) ∧
    decodeTableWord 16 0b1010100110110110 = some (.ldI 0x9B6) ∧
    decodeTableWord 16 0b1011100110110110 = some (.jpV0 0x9B6) := by
  decide

theorem test_encode_format_A :
    encode (.jp 0x9B6) = 0b0001100110110110 ∧
    encode (.call 0x9B6) = 0b0010100110110110 ∧
    encode (.ldI 0x9B6) = 0b1010100110110110 ∧
    encode (.jpV0 0x9B6) = 0b1011100110110110 := by
  decide

/-- Format XK (x = A, kk = 0xC3), each word the pattern of 30_encoding.md R116 with the operand bits filled in. -/
theorem test_decode_format_XK :
    decodeTableWord 16 0b0011101011000011 = some (.seVxKk 0xA 0xC3) ∧
    decodeTableWord 16 0b0100101011000011 = some (.sneVxKk 0xA 0xC3) ∧
    decodeTableWord 16 0b0110101011000011 = some (.ldVxKk 0xA 0xC3) ∧
    decodeTableWord 16 0b0111101011000011 = some (.addVxKk 0xA 0xC3) ∧
    decodeTableWord 16 0b1100101011000011 = some (.rnd 0xA 0xC3) := by
  decide

theorem test_encode_format_XK :
    encode (.seVxKk 0xA 0xC3) = 0b0011101011000011 ∧
    encode (.sneVxKk 0xA 0xC3) = 0b0100101011000011 ∧
    encode (.ldVxKk 0xA 0xC3) = 0b0110101011000011 ∧
    encode (.addVxKk 0xA 0xC3) = 0b0111101011000011 ∧
    encode (.rnd 0xA 0xC3) = 0b1100101011000011 := by
  decide

/-- Format XY (x = A, y = 5), each word the pattern of 30_encoding.md R116 with the operand bits filled in. -/
theorem test_decode_format_XY :
    decodeTableWord 16 0b0101101001010000 = some (.seVxVy 0xA 0x5) ∧
    decodeTableWord 16 0b1000101001010000 = some (.ldVxVy 0xA 0x5) ∧
    decodeTableWord 16 0b1000101001010001 = some (.orVxVy 0xA 0x5) ∧
    decodeTableWord 16 0b1000101001010010 = some (.andVxVy 0xA 0x5) ∧
    decodeTableWord 16 0b1000101001010011 = some (.xorVxVy 0xA 0x5) ∧
    decodeTableWord 16 0b1000101001010100 = some (.addVxVy 0xA 0x5) ∧
    decodeTableWord 16 0b1000101001010101 = some (.subVxVy 0xA 0x5) ∧
    decodeTableWord 16 0b1000101001010110 = some (.shrVxVy 0xA 0x5) ∧
    decodeTableWord 16 0b1000101001010111 = some (.subnVxVy 0xA 0x5) ∧
    decodeTableWord 16 0b1000101001011110 = some (.shlVxVy 0xA 0x5) ∧
    decodeTableWord 16 0b1001101001010000 = some (.sneVxVy 0xA 0x5) := by
  decide

theorem test_encode_format_XY :
    encode (.seVxVy 0xA 0x5) = 0b0101101001010000 ∧
    encode (.ldVxVy 0xA 0x5) = 0b1000101001010000 ∧
    encode (.orVxVy 0xA 0x5) = 0b1000101001010001 ∧
    encode (.andVxVy 0xA 0x5) = 0b1000101001010010 ∧
    encode (.xorVxVy 0xA 0x5) = 0b1000101001010011 ∧
    encode (.addVxVy 0xA 0x5) = 0b1000101001010100 ∧
    encode (.subVxVy 0xA 0x5) = 0b1000101001010101 ∧
    encode (.shrVxVy 0xA 0x5) = 0b1000101001010110 ∧
    encode (.subnVxVy 0xA 0x5) = 0b1000101001010111 ∧
    encode (.shlVxVy 0xA 0x5) = 0b1000101001011110 ∧
    encode (.sneVxVy 0xA 0x5) = 0b1001101001010000 := by
  decide

/-- Format XYN (x = A, y = 5, n = 7), each word the pattern of 30_encoding.md R116 with the operand bits filled in. -/
theorem test_decode_format_XYN :
    decodeTableWord 16 0b1101101001010111 = some (.drw 0xA 0x5 0x7) := by
  decide

theorem test_encode_format_XYN :
    encode (.drw 0xA 0x5 0x7) = 0b1101101001010111 := by
  decide

/-- Format X (x = A), each word the pattern of 30_encoding.md R116 with the operand bits filled in. -/
theorem test_decode_format_X :
    decodeTableWord 16 0b1110101010011110 = some (.skp 0xA) ∧
    decodeTableWord 16 0b1110101010100001 = some (.sknp 0xA) ∧
    decodeTableWord 16 0b1111101000000111 = some (.ldVxDt 0xA) ∧
    decodeTableWord 16 0b1111101000001010 = some (.ldVxKey 0xA) ∧
    decodeTableWord 16 0b1111101000010101 = some (.ldDtVx 0xA) ∧
    decodeTableWord 16 0b1111101000011000 = some (.ldStVx 0xA) ∧
    decodeTableWord 16 0b1111101000011110 = some (.addIVx 0xA) ∧
    decodeTableWord 16 0b1111101000101001 = some (.ldFVx 0xA) ∧
    decodeTableWord 16 0b1111101000110011 = some (.ldBVx 0xA) ∧
    decodeTableWord 16 0b1111101001010101 = some (.ldIVx 0xA) ∧
    decodeTableWord 16 0b1111101001100101 = some (.ldVxI 0xA) := by
  decide

theorem test_encode_format_X :
    encode (.skp 0xA) = 0b1110101010011110 ∧
    encode (.sknp 0xA) = 0b1110101010100001 ∧
    encode (.ldVxDt 0xA) = 0b1111101000000111 ∧
    encode (.ldVxKey 0xA) = 0b1111101000001010 ∧
    encode (.ldDtVx 0xA) = 0b1111101000010101 ∧
    encode (.ldStVx 0xA) = 0b1111101000011000 ∧
    encode (.addIVx 0xA) = 0b1111101000011110 ∧
    encode (.ldFVx 0xA) = 0b1111101000101001 ∧
    encode (.ldBVx 0xA) = 0b1111101000110011 ∧
    encode (.ldIVx 0xA) = 0b1111101001010101 ∧
    encode (.ldVxI 0xA) = 0b1111101001100101 := by
  decide

theorem test_map_rows_Low :
    opcodeRowsLow.map (fun r => (r.mnemonic, r.pattern, r.mask)) =
      [("CLS", 0x00E0, 0xFFFF), ("RET", 0x00EE, 0xFFFF), ("JP", 0x1000, 0xF000), ("CALL", 0x2000, 0xF000),
       ("SE_VX_KK", 0x3000, 0xF000), ("SNE_VX_KK", 0x4000, 0xF000), ("SE_VX_VY", 0x5000, 0xF00F),
       ("LD_VX_KK", 0x6000, 0xF000), ("ADD_VX_KK", 0x7000, 0xF000)] := by
  decide

theorem test_map_rows_Alu :
    opcodeRowsAlu.map (fun r => (r.mnemonic, r.pattern, r.mask)) =
      [("LD_VX_VY", 0x8000, 0xF00F), ("OR_VX_VY", 0x8001, 0xF00F), ("AND_VX_VY", 0x8002, 0xF00F),
       ("XOR_VX_VY", 0x8003, 0xF00F), ("ADD_VX_VY", 0x8004, 0xF00F), ("SUB_VX_VY", 0x8005, 0xF00F),
       ("SHR_VX_VY", 0x8006, 0xF00F), ("SUBN_VX_VY", 0x8007, 0xF00F), ("SHL_VX_VY", 0x800E, 0xF00F)] := by
  decide

theorem test_map_rows_Middle :
    opcodeRowsMiddle.map (fun r => (r.mnemonic, r.pattern, r.mask)) =
      [("SNE_VX_VY", 0x9000, 0xF00F), ("LD_I", 0xA000, 0xF000), ("JP_V0", 0xB000, 0xF000),
       ("RND", 0xC000, 0xF000), ("DRW", 0xD000, 0xF000), ("SKP", 0xE09E, 0xF0FF), ("SKNP", 0xE0A1, 0xF0FF)] := by
  decide

theorem test_map_rows_Misc :
    opcodeRowsMisc.map (fun r => (r.mnemonic, r.pattern, r.mask)) =
      [("LD_VX_DT", 0xF007, 0xF0FF), ("LD_VX_KEY", 0xF00A, 0xF0FF), ("LD_DT_VX", 0xF015, 0xF0FF),
       ("LD_ST_VX", 0xF018, 0xF0FF), ("ADD_I_VX", 0xF01E, 0xF0FF), ("LD_F_VX", 0xF029, 0xF0FF),
       ("LD_B_VX", 0xF033, 0xF0FF), ("LD_I_VX", 0xF055, 0xF0FF), ("LD_VX_I", 0xF065, 0xF0FF)] := by
  decide

/-! ### The check of WellFormed: an illegal word of each family of R118 is refused, by the check and by the decoder -/

theorem test_illegal_zero_family :
    legalWord 0x0000 = false ∧ legalWord 0x00E1 = false ∧ legalWord 0x0123 = false ∧ legalWord 0x0FFF = false ∧
    decodeTableWord 16 0x0000 = none ∧ decodeTableWord 16 0x00E1 = none := by
  decide

theorem test_illegal_register_skips :
    legalWord 0x5121 = false ∧ legalWord 0x9121 = false ∧
    decodeTableWord 16 0x5121 = none ∧ decodeTableWord 16 0x9121 = none := by
  decide

theorem test_illegal_alu :
    legalWord 0x8AB8 = false ∧ legalWord 0x800F = false ∧
    decodeTableWord 16 0x8AB8 = none ∧ decodeTableWord 16 0x800F = none := by
  decide

theorem test_illegal_key_family :
    legalWord 0xE19F = false ∧ legalWord 0xE1A0 = false ∧
    decodeTableWord 16 0xE19F = none ∧ decodeTableWord 16 0xE1A0 = none := by
  decide

theorem test_illegal_misc_family :
    legalWord 0xF130 = false ∧ legalWord 0xF075 = false ∧
    decodeTableWord 16 0xF130 = none ∧ decodeTableWord 16 0xF075 = none := by
  decide

theorem test_legal_words :
    legalWord 0x00E0 = true ∧ legalWord 0x5120 = true ∧ legalWord 0x8ABE = true ∧ legalWord 0x9120 = true ∧
    legalWord 0xE19E = true ∧ legalWord 0xF165 = true := by
  decide

/-- Bytes as memory holds them: the high byte first (L1-3), and one byte alone is no opcode. -/
theorem test_decode_bytes :
    (decodeBytes [0x12, 0x34, 0x56]).toOption = some (.jp 0x234, [0x56]) ∧ (decodeBytes [0x12]).toOption = none ∧
    encodeBytes (.jp 0x234) = [0x12, 0x34] := by
  decide

/-- R140, on the lines of 95_test_vectors.md P1 to P6. -/
theorem test_assembler_lines :
    assemblerLine (.ldVxKk 0xA 0xFE) = "LD VA, 0xFE" ∧ assemblerLine (.ldI 0x300) = "LD I, 0x300" ∧
    assemblerLine (.call 0x20A) = "CALL 0x20A" ∧ assemblerLine (.ldVxI 0x2) = "LD V2, [I]" ∧
    assemblerLine (.drw 0x1 0x2 0x5) = "DRW V1, V2, 0x5" ∧ assemblerLine (.ldVxKey 0x2) = "LD V2, K" ∧
    assemblerLine (.addVxVy 0x1 0xF) = "ADD V1, VF" := by
  decide

/-! ### One step on a small state -/

/-- The reset state of 95_test_vectors.md, with SHIFT_SOURCE and SPRITE_EDGE given. -/
def base (shift : ShiftSource) (edge : SpriteEdge) : State :=
  { State.reset with
    config := ⟨shift, edge, standardFontBase, standardFontData, standardPcAlignCheck⟩ }

/-- The reset state under LEGACY and WRAP. -/
def start : State := base .legacy .wrap

/-- A state with some registers written. -/
def regs (s : State) : List (Nibble × Byte) → State
  | [] => s
  | (x, b) :: rest => regs (s.writeV x b) rest

/-- The next state of one step that runs the word, if there is one. -/
def stepWord (w : Nat) (s : State) : Option State :=
  match step (s.withFetchWord 16 w) with
  | .next t => some t
  | .fault _ => none
  | .refused _ => none

/-- What a step of the word leaves, by a view of the next state. -/
def after {α : Type} (w : Nat) (s : State) (view : State → α) : Option α := (stepWord w s).map view

/-- The lit columns of a framebuffer row. -/
def litColumns (t : State) (row : Fin 32) : List Nat :=
  ((List.finRange 64).filter fun column => t.getPixel column row).map fun column => column.val

/-- VX and VF. -/
def resultAndFlag (x : Nibble) (t : State) : Nat × Nat := ((t.readV x).toNat, (t.readV 0xF).toNat)

/-- PC and the run state. -/
def whereAndHow (t : State) : Nat × RunState := (t.pc.toNat, t.runState)

/-! ### Fetch and halts -/

/-- D-10. -/
theorem test_fetch_last_word :
    after 0x6011 { start with pc := 0xFFE } (fun t => (t.readV 0x0, t.pc)) = some (0x11, 0x1000) := by
  decide

/-- D-11: the bound of PC + 1 comes before the alignment check. -/
theorem test_fetch_last_byte :
    (match step { start with pc := 0xFFF } with | .next t => some (whereAndHow t) | _ => none) =
      some (0xFFF, .halted (.memoryOutOfBounds 0x1000)) := by
  decide

/-- E-9. -/
theorem test_fetch_beyond_memory :
    (match step { start with pc := 0x1000 } with | .next t => some (whereAndHow t) | _ => none) =
      some (0x1000, .halted (.memoryOutOfBounds 0x1000)) := by
  decide

/-- D-12, D-14: MisalignedFetch before InvalidOpcode. -/
theorem test_fetch_odd :
    (match step { start with pc := 0x201 } with | .next t => some (whereAndHow t) | _ => none) =
      some (0x201, .halted (.misalignedFetch 0x201)) := by
  decide

/-- D-13: with PC_ALIGN_CHECK false an odd PC fetches. -/
theorem test_fetch_odd_unchecked :
    after 0x6105 { start with pc := 0x201, config := { start.config with pcAlignCheck := false } }
      (fun t => (t.readV 0x1, t.pc)) = some (0x05, 0x203) := by
  decide

/-- L1-9. -/
theorem test_invalid_opcode : after 0x0000 start whereAndHow = some (0x202, .halted (.invalidOpcode 0x0000)) := by
  decide

/-- D-15. -/
theorem test_halted_step :
    (match step { start with runState := .halted .stackOverflow, displayChanged := true } with
      | .next t => some (whereAndHow t, t.displayChanged)
      | _ => none) = some ((0x200, .halted .stackOverflow), false) := by
  decide

/-! ### Control flow -/

/-- C-1. -/
theorem test_jp : after 0x1234 start (·.pc) = some 0x234 := by decide

/-- C-3. -/
theorem test_call : after 0x2300 start (fun t => (t.pc, t.sp.val, t.stack[0])) = some (0x300, 1, 0x202) := by decide

/-- C-5. -/
theorem test_call_overflow :
    after 0x2200 { start with sp := 16 } (fun t => (whereAndHow t, t.sp.val)) =
      some ((0x202, .halted .stackOverflow), 16) := by
  decide

/-- C-7. -/
theorem test_ret :
    after 0x00EE { start with sp := 1, stack := start.stack.set 0 0x204 } (fun t => (t.pc, t.sp.val)) =
      some (0x204, 0) := by
  decide

/-- C-6. -/
theorem test_ret_underflow : after 0x00EE start whereAndHow = some (0x202, .halted .stackUnderflow) := by decide

/-- C-9. -/
theorem test_se_immediate :
    after 0x3310 (regs start [(0x3, 0x10)]) (·.pc) = some 0x204 ∧
    after 0x3310 (regs start [(0x3, 0x11)]) (·.pc) = some 0x202 := by
  decide

/-- C-10. -/
theorem test_sne_immediate :
    after 0x4310 (regs start [(0x3, 0x11)]) (·.pc) = some 0x204 ∧
    after 0x4310 (regs start [(0x3, 0x10)]) (·.pc) = some 0x202 := by
  decide

/-- C-11. -/
theorem test_se_register :
    after 0x5120 (regs start [(0x1, 0x7F), (0x2, 0x7F)]) (·.pc) = some 0x204 ∧
    after 0x5120 (regs start [(0x1, 0x7F), (0x2, 0x80)]) (·.pc) = some 0x202 := by
  decide

/-- C-13. -/
theorem test_sne_register :
    after 0x9120 (regs start [(0x1, 0x01), (0x2, 0x02)]) (·.pc) = some 0x204 ∧
    after 0x9110 (regs start [(0x1, 0x01)]) (·.pc) = some 0x202 := by
  decide

/-- C-15: a skip past the end of memory. -/
theorem test_skip_past_memory : after 0x3000 { start with pc := 0xFFE } whereAndHow = some (0x1002, .running) := by
  decide

/-- C-17, C-18: no 12-bit mask, and V1 plays no part. -/
theorem test_jp_v0 :
    after 0xBFFF (regs start [(0x0, 0xFF)]) (·.pc) = some 0x10FE ∧
    after 0xB200 (regs start [(0x0, 0x01), (0x1, 0x40)]) (·.pc) = some 0x201 := by
  decide

/-! ### ALU and flags -/

/-- A-1. -/
theorem test_ld_immediate : after 0x6FAA start (·.readV 0xF) = some 0xAA := by decide

/-- A-2, A-3. -/
theorem test_add_immediate :
    after 0x7201 (regs start [(0x2, 0xFF), (0xF, 0x55)]) (resultAndFlag 0x2) = some (0x00, 0x55) ∧
    after 0x7F01 (regs start [(0xF, 0xFF)]) (·.readV 0xF) = some 0x00 := by
  decide

/-- A-4. -/
theorem test_ld_register : after 0x8150 (regs start [(0x5, 0x3C)]) (·.readV 0x1) = some 0x3C := by decide

/-- A-5. -/
theorem test_or :
    after 0x8121 (regs start [(0x1, 0x0F), (0x2, 0xF0), (0xF, 0x55)]) (resultAndFlag 0x1) = some (0xFF, 0x55) := by
  decide

/-- A-6. -/
theorem test_and :
    after 0x8122 (regs start [(0x1, 0x3C), (0x2, 0x0F), (0xF, 0x55)]) (resultAndFlag 0x1) = some (0x0C, 0x55) := by
  decide

/-- A-7. -/
theorem test_xor :
    after 0x8123 (regs start [(0x1, 0xFF), (0x2, 0x0F), (0xF, 0x55)]) (resultAndFlag 0x1) = some (0xF0, 0x55) := by
  decide

/-- A-8, A-9. -/
theorem test_add :
    after 0x8124 (regs start [(0x1, 0x80), (0x2, 0x80)]) (resultAndFlag 0x1) = some (0x00, 1) ∧
    after 0x8124 (regs start [(0x1, 0x7F), (0x2, 0x01), (0xF, 0x55)]) (resultAndFlag 0x1) = some (0x80, 0) := by
  decide

/-- A-11, A-12: the flag overwrites the sum, and VF is read before it is written. -/
theorem test_add_vf :
    after 0x8F14 (regs start [(0xF, 0x10), (0x1, 0x01)]) (·.readV 0xF) = some 0 ∧
    after 0x81F4 (regs start [(0x1, 0x01), (0xF, 0xFF)]) (resultAndFlag 0x1) = some (0x00, 1) := by
  decide

/-- L1-5b, A-14. -/
theorem test_sub :
    after 0x8125 (regs start [(0x1, 0x03), (0x2, 0x05), (0xF, 0x55)]) (resultAndFlag 0x1) = some (0xFE, 0) ∧
    after 0x8125 (regs start [(0x1, 0x40), (0x2, 0x40), (0xF, 0x55)]) (resultAndFlag 0x1) = some (0x00, 1) := by
  decide

/-- A-18, A-19. -/
theorem test_subn :
    after 0x8127 (regs start [(0x1, 0x05), (0x2, 0x03), (0xF, 0x55)]) (resultAndFlag 0x1) = some (0xFE, 0) ∧
    after 0x8127 (regs start [(0x1, 0x03), (0x2, 0x05), (0xF, 0x55)]) (resultAndFlag 0x1) = some (0x02, 1) := by
  decide

/-- A-23. -/
theorem test_shr :
    after 0x8126 (regs (base .legacy .wrap) [(0x1, 0x05), (0x2, 0x08)]) (resultAndFlag 0x1) = some (0x04, 0) ∧
    after 0x8126 (regs (base .modern .wrap) [(0x1, 0x05), (0x2, 0x08)]) (resultAndFlag 0x1) = some (0x02, 1) := by
  decide

/-- A-24, A-25. -/
theorem test_shr_vf :
    after 0x8F06 (regs (base .modern .wrap) [(0xF, 0x02)]) (·.readV 0xF) = some 0 ∧
    after 0x81F6 (regs (base .legacy .wrap) [(0xF, 0x03), (0x1, 0xAA)]) (resultAndFlag 0x1) = some (0x01, 1) := by
  decide

/-- A-28. -/
theorem test_shl :
    after 0x812E (regs (base .legacy .wrap) [(0x1, 0x81), (0x2, 0x40)]) (resultAndFlag 0x1) = some (0x80, 0) ∧
    after 0x812E (regs (base .modern .wrap) [(0x1, 0x81), (0x2, 0x40)]) (resultAndFlag 0x1) = some (0x02, 1) := by
  decide

/-- A-29, A-30. -/
theorem test_rnd :
    after 0xC30F { start with rngSupply := [0xA7, 0x11] } (fun t => (t.readV 0x3, t.rngSupply)) =
      some (0x07, [0x11]) ∧
    after 0xC300 { start with rngSupply := [0xA7, 0x11] } (fun t => (t.readV 0x3, t.rngSupply)) =
      some (0x00, [0x11]) := by
  decide

/-! ### Index register and memory -/

/-- M-1. -/
theorem test_ld_i : after 0xAFFF start (·.i) = some 0xFFF := by decide

/-- M-2, M-3. -/
theorem test_add_i :
    after 0xF01E (regs { start with i := 0x0FFE } [(0x0, 0x05)]) (fun t => (t.i, t.runState)) =
      some (0x1003, .running) ∧
    after 0xF01E (regs { start with i := 0xFFFF } [(0x0, 0x01)]) (·.i) = some 0x0000 := by
  decide

/-- M-6. -/
theorem test_ld_f :
    after 0xF029 (regs start [(0x0, 0x3A)]) (·.i) = some 0x082 ∧
    after 0xF029 (regs start [(0x0, 0xFF)]) (·.i) = some 0x09B := by
  decide

/-- M-9. -/
theorem test_bcd :
    after 0xF033 (regs { start with i := 0xFFD } [(0x0, 123)])
      (fun t => (t.byteAt 0xFFD, t.byteAt 0xFFE, t.byteAt 0xFFF)) = some (0x01, 0x02, 0x03) := by
  decide

/-- M-10, M-11. -/
theorem test_bcd_halt :
    after 0xF033 (regs { start with i := 0xFFE } [(0x0, 123)]) (fun t => (whereAndHow t, t.byteAt 0xFFE)) =
      some ((0x202, .halted (.memoryOutOfBounds 0x1000)), 0x00) ∧
    after 0xF033 (regs { start with i := 0x1003 } [(0x0, 1)]) (·.runState) =
      some (.halted (.memoryOutOfBounds 0x1003)) := by
  decide

/-- M-12. -/
theorem test_store_registers :
    after 0xF255 (regs { start with i := 0x400 } [(0x0, 0x11), (0x1, 0x22), (0x2, 0x33), (0x3, 0x44)])
      (fun t => (t.byteAt 0x400, t.byteAt 0x401, t.byteAt 0x402, t.byteAt 0x403, t.i)) =
      some (0x11, 0x22, 0x33, 0x00, 0x400) := by
  decide

/-- M-15. -/
theorem test_store_registers_halt :
    after 0xFF55 (regs { start with i := 0xFF1 } [(0x0, 0x99)]) (fun t => (t.runState, t.byteAt 0xFF1)) =
      some (.halted (.memoryOutOfBounds 0x1000), 0x00) := by
  decide

/-- M-17: the font's first sixteen bytes. -/
theorem test_load_registers :
    after 0xFF65 { start with i := 0x050 } (fun t => t.v.toList) =
      some [0xF0, 0x90, 0x90, 0x90, 0xF0, 0x20, 0x60, 0x20, 0x20, 0x70, 0xF0, 0x10, 0xF0, 0x80, 0xF0, 0xF0] := by
  decide

/-- M-18. -/
theorem test_load_registers_halt :
    after 0xF665 (regs { start with i := 0xFFA } [(0x0, 0x77)]) (fun t => (t.runState, t.readV 0x0)) =
      some (.halted (.memoryOutOfBounds 0x1000), 0x77) := by
  decide

/-! ### Display -/

/-- P-1. -/
theorem test_cls :
    after 0x00E0 { start with framebuffer := Framebuffer.toggle start.framebuffer (3, 0) }
      (fun t => (litColumns t 0, t.displayChanged)) = some ([], true) := by
  decide

/-- The state of P-4 to P-12: one sprite row at 0x300. -/
def spriteRow (edge : SpriteEdge) (row x y : Byte) : State :=
  regs { (base .legacy edge).setByte 0x300 row with i := 0x300 } [(0x0, x), (0x1, y)]

/-- P-4, P-5. -/
theorem test_drw_edges :
    after 0xD011 (spriteRow .wrap 0xFF 0x3E 0) (fun t => (litColumns t 0, t.readV 0xF)) =
      some ([0, 1, 2, 3, 4, 5, 62, 63], 0) ∧
    after 0xD011 (spriteRow .clip 0xFF 0x3E 0) (fun t => (litColumns t 0, t.readV 0xF)) = some ([62, 63], 0) := by
  decide

/-- P-9: bit 4 is column 3, and it goes from 1 to 0. -/
theorem test_drw_collision :
    after 0xD011 { spriteRow .wrap 0x10 0 0 with framebuffer := Framebuffer.toggle start.framebuffer (3, 0) }
      (fun t => (litColumns t 0, t.readV 0xF, t.displayChanged)) = some ([], 1, true) := by
  decide

/-! ### Keypad and timers -/

/-- K-1. -/
theorem test_skp :
    after 0xE59E (regs (start.withKey 0xA true) [(0x5, 0x0A)]) (·.pc) = some 0x204 ∧
    after 0xE59E (regs start [(0x5, 0x0A)]) (·.pc) = some 0x202 := by
  decide

/-- K-3. -/
theorem test_skp_halt :
    after 0xE59E (regs start [(0x5, 0x10)]) whereAndHow = some (0x202, .halted (.keyIndexOutOfRange 0x10)) := by
  decide

/-- K-2. -/
theorem test_sknp :
    after 0xE5A1 (regs start [(0x5, 0x0A)]) (·.pc) = some 0x204 ∧
    after 0xE5A1 (regs (start.withKey 0xA true) [(0x5, 0x0A)]) (·.pc) = some 0x202 := by
  decide

/-- K-4. -/
theorem test_sknp_halt :
    after 0xE5A1 (regs start [(0x5, 0xFF)]) (·.runState) = some (.halted (.keyIndexOutOfRange 0xFF)) := by
  decide

/-- K-5. -/
theorem test_key_wait :
    after 0xF30A { start with pc := 0x208 } (fun t => (t.pc, t.waiting, t.readV 0x3)) = some (0x208, true, 0x00) := by
  decide

/-- K-7. -/
theorem test_key_smallest :
    after 0xF30A ((start.withKey 0x3 true).withKey 0x9 true) (fun t => (t.pc, t.waiting, t.readV 0x3)) =
      some (0x202, false, 0x03) := by
  decide

/-- K-10. -/
theorem test_ld_vx_dt : after 0xF107 { start with dt := 0x3C } (·.readV 0x1) = some 0x3C := by decide

/-- K-11. -/
theorem test_ld_dt_vx : after 0xF115 (regs start [(0x1, 0x3C)]) (fun t => (t.dt, t.st)) = some (0x3C, 0x00) := by decide

/-- K-12. -/
theorem test_ld_st_vx :
    after 0xF218 (regs start [(0x2, 0x05)]) (fun t => (t.st, t.soundActive)) = some (0x05, true) := by
  decide

/-! ### Events -/

/-- E-2, E-3. -/
theorem test_tick :
    (({ start with dt := 0xFF, st := 0x01 }).tick.dt, ({ start with dt := 0xFF, st := 0x01 }).tick.st) = (0xFE, 0x00) ∧
    ({ start with dt := 5, runState := .halted .stackOverflow }).tick.dt = 5 := by
  decide

/-- L1-3, E-5, E-8: the ROM from 0x200, the font, and registers of the session before gone. -/
theorem test_reset :
    (fun t : State => (t.byteAt 0x200, t.byteAt 0x201, t.byteAt 0x050, t.byteAt 0x09F, t.readV 0x3, whereAndHow t))
      (State.resetWith (regs { start with runState := .halted .stackOverflow } [(0x3, 9)]) [0x12, 0x34]) =
      (0x12, 0x34, 0xF0, 0x80, 0x00, (0x200, .running)) := by
  decide

/-- L1-8. -/
theorem test_reset_oversized :
    (start.resetWith (List.replicate 3585 0xAB)).runState = .halted (.romTooLarge 3585) := by
  rw [resetWith_oversized start (by rw [List.length_replicate]; decide), List.length_replicate]

/-- E-4. -/
theorem test_reset_releases_keys :
    ((start.withKey 0x2 true).resetWith []).key 0x2 = false := by
  decide

/-! ### Witnesses: the hypotheses of each obligation, met by a concrete state -/

/-- The state whose next step runs a word. -/
def placed (w : Nat) (s : State) : State := s.withFetchWord 16 w

/-- V0 to VF hold 0x10, the first value above the key indices. -/
def highRegisters : State := { start with v := Vector.replicate 16 0x10 }

/-- The block is halted. -/
def halted : State := { start with runState := .halted .stackOverflow }

theorem witness_DecodedWordIsItsEncoding : decodeWord 0x8AB4 = .ok (.addVxVy 0xA 0xB) := rfl

theorem witness_UnknownWordsAreTheIllegalOnes : legalWord 0x00EF = false ∧ legalWord 0x00EE = true := by decide

theorem witness_StepRunsTheDecodedInstruction : (placed 0x8124 start).Issues (.addVxVy 0x1 0x2) :=
  ⟨rfl, by unfold State.FetchHalts; decide, rfl⟩

theorem witness_FetchReadsOrHalts_beyond : 4096 ≤ ({ start with pc := 0x1000 } : State).pc.toNat := by decide

theorem witness_FetchReadsOrHalts_last_byte : ({ start with pc := 0xFFF } : State).pc.toNat = 4095 := by decide

theorem witness_FetchReadsOrHalts_odd :
    ({ start with pc := 0xFFD } : State).pc.toNat < 4095 ∧ start.config.pcAlignCheck = true ∧
    ({ start with pc := 0xFFD } : State).pc.toNat % 2 = 1 := by
  decide

theorem witness_FetchReadsOrHalts_reads :
    ({ start with pc := 0xFFE } : State).pc.toNat < 4095 ∧
    (start.config.pcAlignCheck = true → ({ start with pc := 0xFFE } : State).pc.toNat % 2 = 0) := by
  decide

theorem witness_FetchReadsOrHalts_step :
    ({ start with pc := 0xFFF } : State).IsRunning ∧
    fetch { start with pc := 0xFFF } = .error (.memoryOutOfBounds 4096) :=
  ⟨rfl, rfl⟩

theorem witness_IllegalOpcodeHalts : start.IsRunning ∧ ¬ start.FetchHalts ∧ legalWord start.opcodeAt = false :=
  ⟨rfl, by unfold State.FetchHalts; decide, by decide⟩

theorem witness_HaltedStepChangesNothing : halted.runState = .halted .stackOverflow := rfl

/-- A halt of the fetch, at the last PC that has one byte in memory. -/
theorem witness_HaltingStepWritesOnlyTheRunState_fetch :
    ∃ t, ({ start with pc := 0xFFF } : State).IsRunning ∧ step { start with pc := 0xFFF } = .next t ∧
      t.runState = .halted (.memoryOutOfBounds 4096) :=
  ⟨_, rfl, rfl, rfl⟩

/-- A halt of the execute. -/
theorem witness_HaltingStepWritesOnlyTheRunState_execute :
    ∃ t, (placed 0x00EE start).IsRunning ∧ step (placed 0x00EE start) = .next t ∧
      t.runState = .halted .stackUnderflow :=
  ⟨_, rfl, rfl, rfl⟩

theorem witness_HaltingStepWritesOnlyTheRunState_reset :
    (start.resetWith (List.replicate 3585 0xAB)).runState = .halted (.romTooLarge 3585) :=
  test_reset_oversized

/-- The word runs and its own check fails, at the first value that fails it. -/
theorem witness_StepHaltsExactlyInTheFatalConditions_call :
    (placed 0x2300 { start with sp := 16 }).Issues (.call 0x300) ∧
    OwnHalt (.call 0x300) (placed 0x2300 { start with sp := 16 }).fetched .stackOverflow :=
  ⟨⟨rfl, by unfold State.FetchHalts; decide, rfl⟩, rfl, rfl⟩

theorem witness_StepHaltsExactlyInTheFatalConditions_ret :
    (placed 0x00EE start).Issues .ret ∧ OwnHalt .ret (placed 0x00EE start).fetched .stackUnderflow :=
  ⟨⟨rfl, by unfold State.FetchHalts; decide, rfl⟩, rfl, rfl⟩

theorem witness_StepHaltsExactlyInTheFatalConditions_keys :
    ((placed 0xE59E highRegisters).Issues (.skp 0x5) ∧
      OwnHalt (.skp 0x5) (placed 0xE59E highRegisters).fetched (.keyIndexOutOfRange 0x10)) ∧
    ((placed 0xE5A1 highRegisters).Issues (.sknp 0x5) ∧
      OwnHalt (.sknp 0x5) (placed 0xE5A1 highRegisters).fetched (.keyIndexOutOfRange 0x10)) :=
  ⟨⟨⟨rfl, by unfold State.FetchHalts; decide, rfl⟩, by unfold OwnHalt; decide⟩,
   ⟨⟨rfl, by unfold State.FetchHalts; decide, rfl⟩, by unfold OwnHalt; decide⟩⟩

theorem witness_StepHaltsExactlyInTheFatalConditions_memory :
    ((placed 0xD013 { start with i := 0xFFE }).Issues (.drw 0x0 0x1 0x3) ∧
      OwnHalt (.drw 0x0 0x1 0x3) (placed 0xD013 { start with i := 0xFFE }).fetched (.memoryOutOfBounds 4096)) ∧
    ((placed 0xF033 { start with i := 0xFFE }).Issues (.ldBVx 0x0) ∧
      OwnHalt (.ldBVx 0x0) (placed 0xF033 { start with i := 0xFFE }).fetched (.memoryOutOfBounds 4096)) ∧
    ((placed 0xFF55 { start with i := 0xFF1 }).Issues (.ldIVx 0xF) ∧
      OwnHalt (.ldIVx 0xF) (placed 0xFF55 { start with i := 0xFF1 }).fetched (.memoryOutOfBounds 4096)) ∧
    ((placed 0xFF65 { start with i := 0xFF1 }).Issues (.ldVxI 0xF) ∧
      OwnHalt (.ldVxI 0xF) (placed 0xFF65 { start with i := 0xFF1 }).fetched (.memoryOutOfBounds 4096)) :=
  ⟨⟨⟨rfl, by unfold State.FetchHalts; decide, rfl⟩, by unfold OwnHalt; decide⟩,
   ⟨⟨rfl, by unfold State.FetchHalts; decide, rfl⟩, by unfold OwnHalt; decide⟩,
   ⟨⟨rfl, by unfold State.FetchHalts; decide, rfl⟩, by unfold OwnHalt; decide⟩,
   ⟨⟨rfl, by unfold State.FetchHalts; decide, rfl⟩, by unfold OwnHalt; decide⟩⟩

/-- A running step, and it ends running: the other side of the equivalence. -/
theorem witness_StepHaltsExactlyInTheFatalConditions_runs :
    ∃ t, (placed 0x1234 start).IsRunning ∧ step (placed 0x1234 start) = .next t ∧ t.IsRunning :=
  ⟨_, rfl, rfl, rfl⟩

theorem witness_StepKeepsTheInvariant :
    ∃ t, (placed 0x1234 start).Inv ∧ step (placed 0x1234 start) = .next t :=
  ⟨_, by decide, rfl⟩

theorem witness_RunsKeepTheInvariantAndTheConfiguration :
    ∃ t, start.Inv ∧ runEvents [.reset [0x12, 0x34], .tick, .setKey 0x1 true, .step] start = .next t :=
  ⟨_, by decide, rfl⟩

theorem witness_OnlyTheListedWritersWriteV :
    ∃ t, exec (.addVxVy 0x1 0x2) start = .next t ∧ ¬ MayWriteV (.addVxVy 0x1 0x2) 0x2 :=
  ⟨_, rfl, by unfold MayWriteV; decide⟩

/-- LD_VX_I writes up to VX and not the next register. -/
theorem witness_OnlyTheListedWritersWriteV_block :
    ∃ t, exec (.ldVxI 0x2) start = .next t ∧ ¬ MayWriteV (.ldVxI 0x2) 0x3 :=
  ⟨_, rfl, by unfold MayWriteV; decide⟩

theorem witness_OnlyTheListedWritersWriteV_key_wait :
    ∃ t, (∀ k, start.key k = false) ∧ exec (.ldVxKey 0x3) start = .next t :=
  ⟨_, by decide, rfl⟩

theorem witness_OnlyTheListedWritersWriteIStackAndTimers :
    ∃ t, exec .cls start = .next t ∧ (∀ nnn, Instr.cls ≠ .ldI nnn) ∧ (∀ x, Instr.cls ≠ .addIVx x) ∧
      (∀ x, Instr.cls ≠ .ldFVx x) ∧ Instr.cls ≠ .ret ∧ (∀ nnn, Instr.cls ≠ .call nnn) ∧
      (∀ x, Instr.cls ≠ .ldDtVx x) ∧ ∀ x, Instr.cls ≠ .ldStVx x :=
  ⟨_, rfl, by simp⟩

/-- The addresses just below and just above the three bytes of LD_B_VX. -/
theorem witness_StoresTouchOnlyTheirAddresses :
    ∃ t, ({ start with i := 0x300 } : State).MemoryWf ∧ exec (.ldBVx 0x0) { start with i := 0x300 } = .next t ∧
      ¬ StoresAt (.ldBVx 0x0) { start with i := 0x300 } 0x2FF ∧
      ¬ StoresAt (.ldBVx 0x0) { start with i := 0x300 } 0x303 :=
  ⟨_, rfl, rfl, by unfold StoresAt; decide, by unfold StoresAt; decide⟩

theorem witness_StoresTouchOnlyTheirAddresses_block :
    ∃ t, ({ start with i := 0x300 } : State).MemoryWf ∧ exec (.ldIVx 0x2) { start with i := 0x300 } = .next t ∧
      ¬ StoresAt (.ldIVx 0x2) { start with i := 0x300 } 0x2FF ∧
      ¬ StoresAt (.ldIVx 0x2) { start with i := 0x300 } 0x303 :=
  ⟨_, rfl, rfl, by unfold StoresAt; decide, by unfold StoresAt; decide⟩

theorem witness_OnlyClsAndDrwWriteTheFramebuffer :
    ∃ t, exec (.jp 0x234) start = .next t ∧ isDisplay (.jp 0x234) = false ∧ ∀ x, Instr.jp 0x234 ≠ .ldVxKey x :=
  ⟨_, rfl, rfl, by simp⟩

theorem witness_OnlyRndDrawsARandomByte :
    (∃ t, exec (.jp 0x234) start = .next t ∧ ∀ x kk, Instr.jp 0x234 ≠ .rnd x kk) ∧
    ∃ t, exec (.rnd 0x3 0x0F) start = .next t ∧ ∃ x kk, Instr.rnd 0x3 0x0F = .rnd x kk :=
  ⟨⟨_, rfl, by simp⟩, _, rfl, _, _, rfl⟩

theorem witness_PcAdvancesByTwo :
    ∃ t, (placed 0x8124 start).Issues (.addVxVy 0x1 0x2) ∧ step (placed 0x8124 start) = .next t ∧
      isControl (.addVxVy 0x1 0x2) = false ∧ isTransfer (.addVxVy 0x1 0x2) = false ∧
      (placed 0x8124 start).pc.toNat % 2 = 0 :=
  ⟨_, witness_StepRunsTheDecodedInstruction, rfl, rfl, rfl, rfl⟩

theorem witness_StepOutputsAreExact :
    ∃ t, step (placed 0x00E0 start) = .next t ∧ t.displayChanged = true :=
  ⟨_, rfl, rfl⟩

theorem witness_LogicOperations_same : (0x1 : Nibble) = 0x1 := rfl

theorem witness_ShiftsByTheConfiguredSource :
    start.readV 0x2 = (if start.config.shiftSource = .legacy then start.readV 0x2 else start.readV 0x1) ∧
    (base .modern .wrap).config.shiftSource ≠ .legacy := by
  decide

theorem witness_RandomAndMask :
    ({ start with rngSupply := [0xA7] } : State).rngSupply = 0xA7 :: [] ∧ start.rngSupply = [] :=
  ⟨rfl, rfl⟩

/-- The last free entry, the full stack, and an entry CALL does not write. -/
theorem witness_CallPushesOrOverflows :
    ({ start with sp := 15 } : State).sp.val < 16 ∧ ({ start with sp := 16 } : State).sp.val = 16 ∧
    (14 : Fin 16).val ≠ ({ start with sp := 15 } : State).sp.val := by
  decide

theorem witness_RetPopsOrUnderflows : 0 < ({ start with sp := 1 } : State).sp.val ∧ start.sp.val = 0 := by decide

theorem witness_CallThenRetReturns : ({ start with sp := 15 } : State).sp.val < 16 := by decide

theorem witness_RegisterSkips :
    start.readV 0x3 = 0x00 ∧ start.readV 0x3 ≠ 0x10 ∧ start.readV 0x1 = start.readV 0x2 ∧
    (regs start [(0x1, 0x7F)]).readV 0x1 ≠ (regs start [(0x1, 0x7F)]).readV 0x2 := by
  decide

/-- The last I that fits and the first that does not. -/
theorem witness_BcdStore :
    start.MemoryWf ∧ ({ start with i := 0xFFD } : State).i.toNat + 2 < 4096 ∧
    4096 ≤ ({ start with i := 0xFFE } : State).i.toNat + 2 := by
  decide

theorem witness_RegisterBlockStore :
    start.MemoryWf ∧ ({ start with i := 0xFF0 } : State).i.toNat + (0xF : Nibble).toNat < 4096 ∧
    4096 ≤ ({ start with i := 0xFF1 } : State).i.toNat + (0xF : Nibble).toNat ∧
    (0xF : Nibble).toNat ≤ (0xF : Nibble).toNat := by
  decide

theorem witness_RegisterBlockLoad :
    ({ start with i := 0xFF3 } : State).i.toNat + (0xC : Nibble).toNat < 4096 ∧
    4096 ≤ ({ start with i := 0xFF4 } : State).i.toNat + (0xC : Nibble).toNat ∧
    (0xC : Nibble).toNat < (0xD : Nibble).toNat := by
  decide

theorem witness_StoreThenLoadRestoresRegisters :
    ({ start with i := 0xFF0 } : State).MemoryWf ∧
    ({ start with i := 0xFF0 } : State).i.toNat + (0xF : Nibble).toNat < 4096 := by
  decide

/-- No row at any I, the last row at the top of memory, and one row too many. -/
theorem witness_DrawFlipsTheSpritesPixels :
    (0x0 : Nibble).toNat = 0 ∧ ({ start with i := 0xFF1 } : State).i.toNat + (0xF : Nibble).toNat ≤ 4096 ∧
    0 < (0xF : Nibble).toNat ∧ 4096 < ({ start with i := 0xFF2 } : State).i.toNat + (0xF : Nibble).toNat := by
  decide

theorem witness_DrawingTwiceRestoresTheFramebuffer :
    (0x1 : Nibble) ≠ 0xF ∧ (0x2 : Nibble) ≠ 0xF ∧
    ({ start with i := 0xFF1 } : State).i.toNat + (0xF : Nibble).toNat ≤ 4096 := by
  decide

/-- VX names the last key, pressed and not pressed, and VX is the first value that names none. -/
theorem witness_KeySkips :
    (regs start [(0x5, 0x0F)]).readV 0x5 = 0x0F ∧
    ((regs start [(0x5, 0x0F)]).readV 0x5).toNat = (0xF : Nibble).toNat ∧
    (start.withKey 0xF true).key 0xF = true ∧ start.key 0xF = false ∧
    0x0F < ((regs start [(0x5, 0x10)]).readV 0x5).toNat := by
  decide

theorem witness_KeyWait :
    ((start.withKey 0x3 true).withKey 0x9 true).key 0x3 = true ∧
    (∀ j : Nibble, j.toNat < (0x3 : Nibble).toNat → ((start.withKey 0x3 true).withKey 0x9 true).key j = false) ∧
    ∀ k, start.key k = false := by
  decide

theorem witness_WaitEndsAtTheNextStepAfterAKeyPress :
    (placed 0xF30A start).Issues (.ldVxKey 0x3) ∧ ∀ j, (placed 0xF30A start).key j = false :=
  ⟨⟨rfl, by unfold State.FetchHalts; decide, rfl⟩, by decide⟩

/-- A timer at 1, the least that counts down, and one at 0. -/
theorem witness_TickDecrementsTowardZero :
    ({ start with dt := 1 } : State).IsRunning ∧ 0 < ({ start with dt := 1 } : State).dt.toNat ∧
    ({ start with dt := 1 } : State).st = 0x00 := by
  decide

theorem witness_TimersReachZeroAndStay :
    ∃ t, ({ start with dt := 1 } : State).IsRunning ∧
      runEvents (List.replicate 3 .tick) { start with dt := 1 } = .next t :=
  ⟨_, rfl, rfl⟩

theorem witness_SetKeyWritesOneKey : (0xF : Nibble) ≠ 0x0 := by decide

/-- The longest ROM that fits and the last address of memory. -/
theorem witness_ResetLoadsTheRom : (List.replicate 3584 (0xAB : Byte)).length ≤ 3584 ∧ 0xFFF < 4096 := by
  rw [List.length_replicate]
  decide

theorem witness_OversizedRomHalts : 3584 < (List.replicate 3585 (0xAB : Byte)).length := by
  rw [List.length_replicate]
  decide

theorem witness_ResetForgetsTheSession : start.config = highRegisters.config := rfl

theorem witness_OnlyResetLeavesHalted :
    ∃ t, halted.runState = .halted .stackOverflow ∧
      (∀ rom, HostEvent.reset rom ∉ [HostEvent.step, .tick, .setKey 0x2 true, .step]) ∧
      runEvents [.step, .tick, .setKey 0x2 true, .step] halted = .next t :=
  ⟨_, rfl, by simp, rfl⟩

/-- The longest ROM that fits. -/
theorem witness_GlyphOfTheLowNibble : (List.replicate 3584 (0xAB : Byte)).length ≤ 3584 := by
  rw [List.length_replicate]

/-- LD_I_VX stores both bytes of the opcode at the very top of memory: each clause of StoredOrKept has its premise. -/
theorem witness_StoredOpcodeIsTheNextFetched_both :
    ({ start with i := 0xFFE } : State).MemoryWf ∧
    ({ start with i := 0xFFE } : State).i.toNat + (0x1 : Nibble).toNat < 4096 ∧
    ¬ (State.jump { start with i := 0xFFE } 0xFFE).FetchHalts ∧
    0xFFE ≤ (0xFFE : Word).toNat ∧ (0xFFE : Word).toNat + 1 < 0xFFE + 2 :=
  ⟨rfl, by decide, by unfold State.FetchHalts; decide, by decide⟩

/-- LD_B_VX at the highest I that fits: the opcode at 0xFFC keeps its high byte and has its low byte stored. -/
theorem witness_StoredOpcodeIsTheNextFetched_one :
    ({ start with i := 0xFFD } : State).MemoryWf ∧ ({ start with i := 0xFFD } : State).i.toNat + 2 < 4096 ∧
    ¬ (State.jump { start with i := 0xFFD } 0xFFC).FetchHalts ∧
    (0xFFC : Word).toNat < 0xFFD ∧ 0xFFD ≤ (0xFFC : Word).toNat + 1 :=
  ⟨rfl, by decide, by unfold State.FetchHalts; decide, by decide⟩

/-- From a state no fetch can run in: PC at the last byte of memory. -/
theorem witness_FetchWordRunsNext :
    ({ start with pc := 0xFFF } : State).MemoryWf ∧ decodeTableWord 16 0x8124 = some (.addVxVy 0x1 0x2) := by
  decide

end Sys2Proof.Tests
end

section
/-! PROOFS. Control flow (41_control_flow.md): CALL, RET and the register skips. -/

namespace Sys2Proof.Machine

/-! ### Calls and returns (R160, R162) -/

/-- Zero extension keeps the address (30_encoding.md R115). -/
@[simp] theorem toNat_zextAddr (nnn : Addr12) : (zextAddr nnn).toNat = nnn.toNat := by
  unfold zextAddr
  exact BitVec.toNat_setWidth_of_le (by decide)

/-- CALL with a free entry: everything it writes. -/
theorem exec_call_of_room (nnn : Addr12) (s : State) (room : s.sp.val < 16) :
    exec (.call nnn) s = .next
      { s with pc := zextAddr nnn, stack := s.stack.set s.sp.val s.pc room, sp := ⟨s.sp.val + 1, by omega⟩ } := by
  obtain ⟨full, -⟩ | ⟨_, answer⟩ := execCall_cases nnn s
  · omega
  · exact answer

/-- CALL on a full stack halts, and halt entry writes the run state only. -/
theorem exec_call_of_full (nnn : Addr12) (s : State) (full : s.sp.val = 16) :
    exec (.call nnn) s = .next (s.halt .stackOverflow) := by
  obtain ⟨-, answer⟩ | ⟨room, -⟩ := execCall_cases nnn s
  · exact answer
  · omega

/-- RET with an entry to pop: everything it writes. -/
theorem exec_ret_of_nonempty (s : State) (nonempty : 0 < s.sp.val) :
    exec .ret s = .next { s with pc := s.stack[s.sp.val - 1], sp := ⟨s.sp.val - 1, by omega⟩ } := by
  obtain ⟨empty, -⟩ | ⟨_, answer⟩ := execRet_cases s
  · omega
  · exact answer

/-- RET on an empty stack halts, and halt entry writes the run state only. -/
theorem exec_ret_of_empty (s : State) (empty : s.sp.val = 0) : exec .ret s = .next (s.halt .stackUnderflow) := by
  obtain ⟨-, answer⟩ | ⟨nonempty, -⟩ := execRet_cases s
  · exact answer
  · exact absurd empty nonempty

/-- Settles O32: with a free entry the pushed slot holds PC and the other slots are those of `Vector.set`; the full stack
is the halt. -/
theorem callPushesOrOverflows : Obligations.CallPushesOrOverflows := by
  intro s nnn
  refine ⟨fun room => ?_, exec_call_of_full nnn s⟩
  refine ⟨_, exec_call_of_room nnn s room, rfl, toNat_zextAddr nnn, rfl, ?pushed, ?others⟩
  case pushed => exact Vector.getElem_set_self room
  case others => exact fun k other => Vector.getElem_set_ne room k.isLt other.symm

/-- Settles O33: the popped entry goes to PC unchecked; the empty stack is the halt. -/
theorem retPopsOrUnderflows : Obligations.RetPopsOrUnderflows :=
  fun s => ⟨fun nonempty => ⟨_, exec_ret_of_nonempty s nonempty, rfl, rfl, rfl⟩, exec_ret_of_empty s⟩

/-! ### Register skips (R163 to R166) -/

/-- What a skip does to the state, with its condition read as a proposition `p` and the condition's failure as `q`: PC
alone moves, by 2 under `p` and not at all under `q`. -/
theorem skipIf_of_iff (s : State) {c : Bool} {p q : Prop} (holds : c = true ↔ p) (fails : c = false ↔ q) :
    s.skipIf c = { s with pc := (s.skipIf c).pc } ∧
      (p → (s.skipIf c).pc = s.pc + 2) ∧ (q → (s.skipIf c).pc = s.pc) := by
  rw [skipIf_frame, ← holds, ← fails]
  exact ⟨rfl, fun skips => if_pos skips, fun stays => if_neg (ne_true_of_eq_false stays)⟩

/-- Settles O35: SE skips on the comparison `==` and SNE on `!=`, each read as the equation and the inequality. -/
theorem registerSkips : Obligations.RegisterSkips :=
  fun s _ _ _ =>
    ⟨⟨_, rfl, skipIf_of_iff s beq_iff_eq beq_eq_false_iff_ne⟩,
      ⟨_, rfl, skipIf_of_iff s bne_iff_ne bne_eq_false_iff_eq⟩,
      ⟨_, rfl, skipIf_of_iff s beq_iff_eq beq_eq_false_iff_ne⟩,
      ⟨_, rfl, skipIf_of_iff s bne_iff_ne bne_eq_false_iff_eq⟩⟩

end Sys2Proof.Machine
end

section
/-! PROOFS. Loads, and the sums and differences with a flag (42_alu.md). -/

namespace Sys2Proof.Machine

/-! ### What the register writes change (R201) -/

/-- A register write changes that register and nothing else. -/
theorem setsRegister_writeV (s : State) (x : Nibble) (b : Byte) : SetsRegister s (s.writeV x b) x b := by
  refine ⟨rfl, ?written, fun r other => ?kept⟩
  case written => rw [readV_writeV, if_pos rfl]
  case kept => rw [readV_writeV, if_neg other.symm]

/-- A result and its flag: with x = F the flag overwrites the result, and no other register is touched. -/
theorem setsRegisterAndFlag_writeWithFlag (s : State) (x : Nibble) (result flag : Byte) :
    SetsRegisterAndFlag s (s.writeWithFlag x result flag) x result flag := by
  refine ⟨writeWithFlag_frame s x result flag, ?flag, fun notVF => ?result, fun r other notVF => ?kept⟩
  case flag => rw [readV_writeWithFlag, if_pos rfl]
  case result => rw [readV_writeWithFlag, if_neg notVF, if_pos rfl]
  case kept => rw [readV_writeWithFlag, if_neg notVF, if_neg other.symm]

/-! ### Sums, differences and their flags as natural numbers (R200, R212, R213) -/

theorem byte_add_eq_ofNat (a b : Byte) : a + b = BitVec.ofNat 8 ((a.toNat + b.toNat) % 256) := by
  apply BitVec.eq_of_toNat_eq
  rw [BitVec.toNat_add, BitVec.toNat_ofNat, Nat.mod_mod]

theorem byte_sub_eq_ofNat (a b : Byte) : a - b = BitVec.ofNat 8 ((a.toNat + 256 - b.toNat) % 256) := by
  apply BitVec.eq_of_toNat_eq
  rw [BitVec.toNat_sub, BitVec.toNat_ofNat, Nat.mod_mod]
  have fits : b.toNat < 256 := b.isLt
  congr 1
  omega

theorem flagByte_decide (p : Prop) [Decidable p] : flagByte (decide p) = if p then 1 else 0 := by
  unfold flagByte
  simp only [decide_eq_true_eq]

theorem carryFlag_eq (a b : Byte) : carryFlag a b = if a.toNat + b.toNat > 255 then 1 else 0 :=
  flagByte_decide _

theorem noBorrowFlag_eq (minuend subtrahend : Byte) :
    noBorrowFlag minuend subtrahend = if minuend.toNat ≥ subtrahend.toNat then 1 else 0 :=
  flagByte_decide _

/-! ### The obligations -/

/-- Settles O25: each load is one register write. -/
theorem loadImmediateAndMove : Obligations.LoadImmediateAndMove :=
  fun s x y kk => ⟨⟨_, rfl, setsRegister_writeV s x kk⟩, ⟨_, rfl, setsRegister_writeV s x (s.readV y)⟩⟩

/-- Settles O28: both operands are read before `writeWithFlag`, whose result and flag are read as natural numbers. -/
theorem addAndSubtractWithFlag : Obligations.AddAndSubtractWithFlag := by
  intro s x y
  simp only [← byte_add_eq_ofNat, ← byte_sub_eq_ofNat, ← carryFlag_eq, ← noBorrowFlag_eq]
  exact
    ⟨⟨_, rfl, setsRegisterAndFlag_writeWithFlag s x _ _⟩,
      ⟨_, rfl, setsRegisterAndFlag_writeWithFlag s x _ _⟩,
      ⟨_, rfl, setsRegisterAndFlag_writeWithFlag s x _ _⟩⟩

end Sys2Proof.Machine
end

section
/-! PROOFS. The timer reads and writes (45_keypad_timers.md). -/

namespace Sys2Proof.Machine

/-- The sound output follows ST with no state of its own (10_state.md R67). -/
theorem soundActive_iff (s : State) : s.soundActive = true ↔ s.st ≠ 0x00 := by
  unfold State.soundActive
  exact bne_iff_ne

/-- Settles O48: the read is one register write; each timer write replaces its timer by VX, and the sound output is read
from the new ST. -/
theorem timerAccess : Obligations.TimerAccess := by
  intro s x
  refine ⟨?readDt, ?writeDt, ?writeSt⟩
  case readDt => exact ⟨_, rfl, setsRegister_writeV s x s.dt⟩
  case writeDt => exact ⟨_, rfl, rfl, rfl⟩
  case writeSt => exact ⟨_, rfl, rfl, rfl, soundActive_iff { s with st := s.readV x }⟩

end Sys2Proof.Machine
end

section
/-! PROOFS. Halted steps and the timer decrement unit (60_exceptions.md). -/

namespace Sys2Proof.Machine

/-! ### Steps of a halted block (R358) -/

/-- Settles O10: a halted block's step clears the two outputs, and `clearOutputs` writes nothing else. -/
theorem haltedStepChangesNothing : Obligations.HaltedStepChangesNothing :=
  fun _ _ halted => step_halted halted

/-! ### One timer's decrement (R370) -/

theorem decremented_add_one {timer : Byte} (above : 0 < timer.toNat) : (decremented timer).toNat + 1 = timer.toNat := by
  rw [toNat_decremented, Nat.sub_add_cancel above]

theorem decremented_of_eq_zero {timer : Byte} (zero : timer = 0x00) : decremented timer = 0x00 := by
  subst zero
  rfl

/-- A tick in Running state decrements each timer and writes nothing else. -/
theorem handle_tick_running {s : State} (running : s.IsRunning) :
    handle .tick s = .next { s with dt := decremented s.dt, st := decremented s.st } :=
  congrArg Host.Outcome.next (tick_running running)

/-- Settles O49: a tick decrements each timer on its own, and each decrement is 1 above 0 and none at 0. -/
theorem tickDecrementsTowardZero : Obligations.TickDecrementsTowardZero :=
  fun _ running =>
    ⟨_, handle_tick_running running, rfl,
      decremented_add_one, decremented_of_eq_zero,
      decremented_add_one, decremented_of_eq_zero⟩

end Sys2Proof.Machine
end

section
/-! PROOFS. The encoder, the decoder, the opcode map as data and the list of illegal words agree (30_encoding.md). -/

namespace Sys2Proof

/-! ### Decoding an encoding (R110, R111, R116) -/

/-- The decoder reads back every instruction from its opcode: the leading nibble and the further fixed fields of its
format select the branch, and each operand is its own field. -/
theorem decodeWord_encode (i : Instr) : decodeWord (encode i) = .ok i := by
  cases i
  case cls | ret => all_goals rfl
  case jp | call | ldI | jpV0 => all_goals simp [encode, decodeWord, fieldOp_formatA, fieldNnn_formatA]
  case seVxKk | sneVxKk | ldVxKk | addVxKk | rnd =>
    all_goals simp [encode, decodeWord, fieldOp_formatXK, fieldX_formatXK, fieldKk_formatXK]
  case seVxVy | sneVxVy | drw =>
    all_goals
      simp [encode, decodeWord, fieldOp_formatXYN, fieldX_formatXYN, fieldY_formatXYN, fieldN_formatXYN]
  case ldVxVy | orVxVy | andVxVy | xorVxVy | addVxVy | subVxVy | shrVxVy | subnVxVy | shlVxVy =>
    all_goals
      simp [encode, decodeWord, decodeAlu, fieldOp_formatXYN, fieldX_formatXYN, fieldY_formatXYN, fieldN_formatXYN]
  case skp | sknp => all_goals simp [encode, decodeWord, decodeKey, fieldOp_formatXK, fieldX_formatXK, fieldKk_formatXK]
  case ldVxDt | ldVxKey | ldDtVx | ldStVx | addIVx | ldFVx | ldBVx | ldIVx | ldVxI =>
    all_goals simp [encode, decodeWord, decodeMisc, fieldOp_formatXK, fieldX_formatXK, fieldKk_formatXK]

/-- Settles O1: the bytes of an encoding are its high and low byte, so the byte decoder decodes the same word. -/
theorem decodeEncodeRoundTrip : Obligations.DecodeEncodeRoundTrip := by
  intro i
  have word := decodeWord_encode i
  refine ⟨word, fun rest => ?bytes⟩
  case bytes => rw [encodeBytes, List.cons_append, List.cons_append, List.nil_append, decodeBytes_opcode, word]

/-! ### A word is the concatenation of its fields (R111) -/

/-- Format A: the leading nibble and nnn are the whole word. -/
theorem formatA_of_fields {w : Word} {op : Nibble} (isOp : fieldOp w = op) : op ++ fieldNnn w = w := by
  subst isOp
  apply BitVec.eq_of_toNat_eq
  rw [toNat_formatA, toNat_fieldOp, toNat_fieldNnn]
  omega

/-- Formats XK and X: the leading nibble, x and kk are the whole word. -/
theorem formatXK_of_fields {w : Word} {op : Nibble} {kk : Byte} (isOp : fieldOp w = op) (isKk : fieldKk w = kk) :
    op ++ fieldX w ++ kk = w := by
  subst isOp isKk
  apply BitVec.eq_of_toNat_eq
  rw [toNat_formatXK, toNat_fieldOp, toNat_fieldX, toNat_fieldKk]
  omega

/-- Formats XY and XYN: the four nibbles are the whole word. -/
theorem formatXYN_of_fields {w : Word} {op n : Nibble} (isOp : fieldOp w = op) (isN : fieldN w = n) :
    op ++ fieldX w ++ fieldY w ++ n = w := by
  subst isOp isN
  apply BitVec.eq_of_toNat_eq
  rw [toNat_formatXYN, toNat_fieldOp, toNat_fieldX, toNat_fieldY, toNat_fieldN]
  omega

/-! ### Everything the decoder can answer (R117, R118) -/

/-- What the decoder may answer for a word: an instruction whose encoding it is, or Unknown for an illegal word. -/
def SoundAnswer (w : Word) (answer : Except DecodeError Instr) : Prop :=
  (∃ i, answer = .ok i ∧ encode i = w) ∨ (answer = .error (.unknownOpcode w) ∧ legalWord w = false)

theorem soundAnswer_ok {w : Word} {i : Instr} (isEncoding : encode i = w) : SoundAnswer w (.ok i) :=
  .inl ⟨i, rfl, isEncoding⟩

theorem soundAnswer_unknown {w : Word} (illegal : legalWord w = false) : SoundAnswer w (.error (.unknownOpcode w)) :=
  .inr ⟨rfl, illegal⟩

/-! The check of R118 in each family that holds illegal words. -/

section LegalFamilies
variable {w : Word}

theorem legalWord_op0 (op : fieldOp w = 0x0) : legalWord w = (w == 0x00E0 || w == 0x00EE) := by
  rw [legalWord_fields, op]
  rfl

theorem legalWord_op5 (op : fieldOp w = 0x5) : legalWord w = (fieldN w == 0x0) := by
  rw [legalWord_fields, op]
  rfl

theorem legalWord_op8 (op : fieldOp w = 0x8) :
    legalWord w = [0x0, 0x1, 0x2, 0x3, 0x4, 0x5, 0x6, 0x7, 0xE].contains (fieldN w) := by
  have complement : ∀ n : Nibble, (!([0x8, 0x9, 0xA, 0xB, 0xC, 0xD, 0xF].contains n)) =
      [0x0, 0x1, 0x2, 0x3, 0x4, 0x5, 0x6, 0x7, 0xE].contains n := by
    decide
  rw [legalWord_fields, op, ← complement]
  rfl

theorem legalWord_op9 (op : fieldOp w = 0x9) : legalWord w = (fieldN w == 0x0) := by
  rw [legalWord_fields, op]
  rfl

theorem legalWord_opE (op : fieldOp w = 0xE) : legalWord w = [0x9E, 0xA1].contains (fieldKk w) := by
  rw [legalWord_fields, op]
  rfl

theorem legalWord_opF (op : fieldOp w = 0xF) :
    legalWord w = [0x07, 0x0A, 0x15, 0x18, 0x1E, 0x29, 0x33, 0x55, 0x65].contains (fieldKk w) := by
  rw [legalWord_fields, op]
  rfl

end LegalFamilies

theorem soundAnswer_ite {w : Word} {c : Prop} [Decidable c] {yes no : Except DecodeError Instr}
    (holds : c → SoundAnswer w yes) (fails : ¬ c → SoundAnswer w no) : SoundAnswer w (if c then yes else no) := by
  split
  · exact holds ‹_›
  · exact fails ‹_›

theorem decodeAlu_sound {w : Word} (op : fieldOp w = 0x8) : SoundAnswer w (decodeAlu w) := by
  unfold decodeAlu
  iterate 9 refine soundAnswer_ite (fun n => soundAnswer_ok (formatXYN_of_fields op n)) fun _ => ?_
  exact soundAnswer_unknown (by simp_all [legalWord_op8 op])

theorem decodeKey_sound {w : Word} (op : fieldOp w = 0xE) : SoundAnswer w (decodeKey w) := by
  unfold decodeKey
  iterate 2 refine soundAnswer_ite (fun kk => soundAnswer_ok (formatXK_of_fields op kk)) fun _ => ?_
  exact soundAnswer_unknown (by simp_all [legalWord_opE op])

theorem decodeMisc_sound {w : Word} (op : fieldOp w = 0xF) : SoundAnswer w (decodeMisc w) := by
  unfold decodeMisc
  iterate 9 refine soundAnswer_ite (fun kk => soundAnswer_ok (formatXK_of_fields op kk)) fun _ => ?_
  exact soundAnswer_unknown (by simp_all [legalWord_opF op])

/-- The decoder answers soundly on every word, leading nibble by leading nibble in its own order. -/
theorem decodeWord_sound (w : Word) : SoundAnswer w (decodeWord w) := by
  have formatA {op : Nibble} {i : Instr} (encodes : encode i = op ++ fieldNnn w) (isOp : fieldOp w = op) :
      SoundAnswer w (.ok i) := soundAnswer_ok (encodes.trans (formatA_of_fields isOp))
  have formatXK {op : Nibble} {i : Instr} (encodes : encode i = op ++ fieldX w ++ fieldKk w) (isOp : fieldOp w = op) :
      SoundAnswer w (.ok i) := soundAnswer_ok (encodes.trans (formatXK_of_fields isOp rfl))
  unfold decodeWord
  refine soundAnswer_ite (fun op => ?_) fun not0 => ?_
  · refine soundAnswer_ite (fun cls => soundAnswer_ok cls.symm) fun notCls => ?_
    refine soundAnswer_ite (fun ret => soundAnswer_ok ret.symm) fun notRet => ?_
    exact soundAnswer_unknown (by simp_all [legalWord_op0 op])
  refine soundAnswer_ite (formatA rfl) fun not1 => ?_
  refine soundAnswer_ite (formatA rfl) fun not2 => ?_
  refine soundAnswer_ite (formatXK rfl) fun not3 => ?_
  refine soundAnswer_ite (formatXK rfl) fun not4 => ?_
  refine soundAnswer_ite (fun op => ?_) fun not5 => ?_
  · refine soundAnswer_ite (fun n => soundAnswer_ok (formatXYN_of_fields op n)) fun other => ?_
    exact soundAnswer_unknown (by simp_all [legalWord_op5 op])
  refine soundAnswer_ite (formatXK rfl) fun not6 => ?_
  refine soundAnswer_ite (formatXK rfl) fun not7 => ?_
  refine soundAnswer_ite decodeAlu_sound fun not8 => ?_
  refine soundAnswer_ite (fun op => ?_) fun not9 => ?_
  · refine soundAnswer_ite (fun n => soundAnswer_ok (formatXYN_of_fields op n)) fun other => ?_
    exact soundAnswer_unknown (by simp_all [legalWord_op9 op])
  refine soundAnswer_ite (formatA rfl) fun notA => ?_
  refine soundAnswer_ite (formatA rfl) fun notB => ?_
  refine soundAnswer_ite (formatXK rfl) fun notC => ?_
  refine soundAnswer_ite (fun op => soundAnswer_ok (formatXYN_of_fields op rfl)) fun notD => ?_
  refine soundAnswer_ite decodeKey_sound fun notE => decodeMisc_sound ?_
  bv_omega

/-- Settles O2: the only sound answer that is an instruction is one whose encoding the word is. -/
theorem decodedWordIsItsEncoding : Obligations.DecodedWordIsItsEncoding := by
  intro w i decoded
  obtain ⟨j, answer, encodes⟩ | ⟨answer, -⟩ := decodeWord_sound w
  · cases decoded.symm.trans answer
    exact encodes
  · cases decoded.symm.trans answer

/-- Every encoding is a legal word, from the lemma of each constructor. -/
theorem legalWord_encode : ∀ i : Instr, Laws.LegalEncoding.Statement i
  | .cls => Laws.LegalEncoding.cls
  | .ret => Laws.LegalEncoding.ret
  | .jp nnn => Laws.LegalEncoding.jp nnn
  | .call nnn => Laws.LegalEncoding.call nnn
  | .seVxKk x kk => Laws.LegalEncoding.seVxKk x kk
  | .sneVxKk x kk => Laws.LegalEncoding.sneVxKk x kk
  | .seVxVy x y => Laws.LegalEncoding.seVxVy x y
  | .ldVxKk x kk => Laws.LegalEncoding.ldVxKk x kk
  | .addVxKk x kk => Laws.LegalEncoding.addVxKk x kk
  | .ldVxVy x y => Laws.LegalEncoding.ldVxVy x y
  | .orVxVy x y => Laws.LegalEncoding.orVxVy x y
  | .andVxVy x y => Laws.LegalEncoding.andVxVy x y
  | .xorVxVy x y => Laws.LegalEncoding.xorVxVy x y
  | .addVxVy x y => Laws.LegalEncoding.addVxVy x y
  | .subVxVy x y => Laws.LegalEncoding.subVxVy x y
  | .shrVxVy x y => Laws.LegalEncoding.shrVxVy x y
  | .subnVxVy x y => Laws.LegalEncoding.subnVxVy x y
  | .shlVxVy x y => Laws.LegalEncoding.shlVxVy x y
  | .sneVxVy x y => Laws.LegalEncoding.sneVxVy x y
  | .ldI nnn => Laws.LegalEncoding.ldI nnn
  | .jpV0 nnn => Laws.LegalEncoding.jpV0 nnn
  | .rnd x kk => Laws.LegalEncoding.rnd x kk
  | .drw x y n => Laws.LegalEncoding.drw x y n
  | .skp x => Laws.LegalEncoding.skp x
  | .sknp x => Laws.LegalEncoding.sknp x
  | .ldVxDt x => Laws.LegalEncoding.ldVxDt x
  | .ldVxKey x => Laws.LegalEncoding.ldVxKey x
  | .ldDtVx x => Laws.LegalEncoding.ldDtVx x
  | .ldStVx x => Laws.LegalEncoding.ldStVx x
  | .addIVx x => Laws.LegalEncoding.addIVx x
  | .ldFVx x => Laws.LegalEncoding.ldFVx x
  | .ldBVx x => Laws.LegalEncoding.ldBVx x
  | .ldIVx x => Laws.LegalEncoding.ldIVx x
  | .ldVxI x => Laws.LegalEncoding.ldVxI x

/-- Settles O5: the decoder's sound answers are an instruction for a legal word and Unknown for an illegal one. -/
theorem unknownWordsAreTheIllegalOnes : Obligations.UnknownWordsAreTheIllegalOnes := by
  intro w
  obtain ⟨i, answer, rfl⟩ | ⟨answer, illegal⟩ := decodeWord_sound w
  · have legal : legalWord (encode i) = true := legalWord_encode i
    simp [answer, legal]
  · simp [answer, illegal]

/-! ### The opcode map (R116, R117) -/

/-- Every encoding selects a row of the map, from the lemma of each constructor. -/
theorem mapRow_encode : ∀ i : Instr, Laws.MapRow.Statement i
  | .cls => Laws.MapRow.cls
  | .ret => Laws.MapRow.ret
  | .jp nnn => Laws.MapRow.jp nnn
  | .call nnn => Laws.MapRow.call nnn
  | .seVxKk x kk => Laws.MapRow.seVxKk x kk
  | .sneVxKk x kk => Laws.MapRow.sneVxKk x kk
  | .seVxVy x y => Laws.MapRow.seVxVy x y
  | .ldVxKk x kk => Laws.MapRow.ldVxKk x kk
  | .addVxKk x kk => Laws.MapRow.addVxKk x kk
  | .ldVxVy x y => Laws.MapRow.ldVxVy x y
  | .orVxVy x y => Laws.MapRow.orVxVy x y
  | .andVxVy x y => Laws.MapRow.andVxVy x y
  | .xorVxVy x y => Laws.MapRow.xorVxVy x y
  | .addVxVy x y => Laws.MapRow.addVxVy x y
  | .subVxVy x y => Laws.MapRow.subVxVy x y
  | .shrVxVy x y => Laws.MapRow.shrVxVy x y
  | .subnVxVy x y => Laws.MapRow.subnVxVy x y
  | .shlVxVy x y => Laws.MapRow.shlVxVy x y
  | .sneVxVy x y => Laws.MapRow.sneVxVy x y
  | .ldI nnn => Laws.MapRow.ldI nnn
  | .jpV0 nnn => Laws.MapRow.jpV0 nnn
  | .rnd x kk => Laws.MapRow.rnd x kk
  | .drw x y n => Laws.MapRow.drw x y n
  | .skp x => Laws.MapRow.skp x
  | .sknp x => Laws.MapRow.sknp x
  | .ldVxDt x => Laws.MapRow.ldVxDt x
  | .ldVxKey x => Laws.MapRow.ldVxKey x
  | .ldDtVx x => Laws.MapRow.ldDtVx x
  | .ldStVx x => Laws.MapRow.ldStVx x
  | .addIVx x => Laws.MapRow.addIVx x
  | .ldFVx x => Laws.MapRow.ldFVx x
  | .ldBVx x => Laws.MapRow.ldBVx x
  | .ldIVx x => Laws.MapRow.ldIVx x
  | .ldVxI x => Laws.MapRow.ldVxI x

/-! The word of a row that it selects, by the row's mask. -/

section Masks
variable {w : Word} {op n : Nibble} {kk : Byte}

theorem fieldOp_of_selects (selects : (w &&& 0xF000 == op ++ 0x000#12) = true) : fieldOp w = op := by
  rwa [Laws.MapRow.selects_F000, beq_iff_eq] at selects

theorem formatXY_of_selects (selects : (w &&& 0xF00F == op ++ 0x0#4 ++ 0x0#4 ++ n) = true) :
    op ++ fieldX w ++ fieldY w ++ n = w := by
  rw [Laws.MapRow.selects_F00F, Bool.and_eq_true, beq_iff_eq, beq_iff_eq] at selects
  exact formatXYN_of_fields selects.1 selects.2

theorem formatX_of_selects (selects : (w &&& 0xF0FF == op ++ 0x0#4 ++ kk) = true) : op ++ fieldX w ++ kk = w := by
  rw [Laws.MapRow.selects_F0FF, Bool.and_eq_true, beq_iff_eq, beq_iff_eq] at selects
  exact formatXK_of_fields selects.1 selects.2

end Masks

/-- A row that a word selects builds the instruction whose encoding the word is: between them the row's pattern and the
fields that its `build` reads hold the whole word. The rows are taken in the order of R116. -/
theorem encode_build_of_selects {r : OpcodeRow} {w : Word} (row : r ∈ opcodeMap) (selects : r.selects w = true) :
    encode (r.build w) = w := by
  simp only [opcodeMap, opcodeRowsLow, opcodeRowsAlu, opcodeRowsMiddle, opcodeRowsMisc, List.mem_append, List.mem_cons,
    List.not_mem_nil, or_false, or_assoc] at row
  rcases row with rfl | rfl | rfl | rfl | rfl | rfl | rfl | rfl | rfl | rfl | rfl | rfl | rfl | rfl | rfl | rfl | rfl |
    rfl | rfl | rfl | rfl | rfl | rfl | rfl | rfl | rfl | rfl | rfl | rfl | rfl | rfl | rfl | rfl | rfl
  -- CLS and RET: the mask keeps the whole word.
  iterate 2 exact (beq_iff_eq.1 selects).symm.trans (BitVec.and_allOnes (x := w))
  -- JP, CALL; SE, SNE; SE_VX_VY; LD, ADD.
  iterate 2 exact formatA_of_fields (fieldOp_of_selects selects)
  iterate 2 exact formatXK_of_fields (fieldOp_of_selects selects) rfl
  · exact formatXY_of_selects selects
  iterate 2 exact formatXK_of_fields (fieldOp_of_selects selects) rfl
  -- The 0x8 family and SNE_VX_VY.
  iterate 10 exact formatXY_of_selects selects
  -- LD_I, JP_V0; RND; DRW.
  iterate 2 exact formatA_of_fields (fieldOp_of_selects selects)
  · exact formatXK_of_fields (fieldOp_of_selects selects) rfl
  · exact formatXYN_of_fields (fieldOp_of_selects selects) rfl
  -- The 0xE and 0xF families.
  iterate 11 exact formatX_of_selects selects

/-- Settles O3: the search finds a row exactly where the decoder finds an instruction, and a row that a word selects
builds the instruction that the word encodes. -/
theorem decoderIsTheMapSearch : Obligations.DecoderIsTheMapSearch := by
  intro w
  unfold decodeByMap
  split
  case h_1 r found =>
    have selects : r.selects w = true := List.find?_some (p := fun row : OpcodeRow => row.selects w) found
    have encodes := encode_build_of_selects (List.mem_of_find?_eq_some found) selects
    rw [← decodeWord_encode (r.build w), encodes]
  case h_2 none =>
    obtain ⟨i, -, rfl⟩ | ⟨answer, -⟩ := decodeWord_sound w
    · obtain ⟨k, selects, -⟩ := mapRow_encode i
      exact absurd selects (List.find?_eq_none.1 none _ (List.getElem_mem k.isLt))
    · exact answer

/-- Two rows that one word selects agree on the bits that both masks keep. -/
theorem pattern_and_mask_of_selects {r r' : OpcodeRow} {w : Word} (first : r.selects w = true)
    (second : r'.selects w = true) : r.pattern &&& r'.mask = r'.pattern &&& r.mask := by
  rw [← beq_iff_eq.1 first, ← beq_iff_eq.1 second, BitVec.and_assoc, BitVec.and_assoc, BitVec.and_comm r.mask]

/-- Any two rows of the map differ on a bit that both masks keep. -/
theorem opcodeMap_pairwise : opcodeMap.Pairwise fun r r' => r.pattern &&& r'.mask ≠ r'.pattern &&& r.mask := by
  decide

/-- Settles O4: rows that one word selects agree where both masks look, and no two rows of the map do. -/
theorem opcodeRowsNeverOverlap : Obligations.OpcodeRowsNeverOverlap := by
  refine ⟨rfl, fun w => ?_⟩
  have apart := opcodeMap_pairwise.filter fun r => r.selects w
  have selected : ∀ r ∈ opcodeMap.filter fun r => r.selects w, r.selects w = true := fun r mem =>
    (List.mem_filter.1 mem).2
  generalize opcodeMap.filter (fun r => r.selects w) = rows at apart selected ⊢
  match rows with
  | [] => exact Nat.zero_le 1
  | [_] => exact Nat.le_refl 1
  | r :: r' :: rest =>
    have agree := pattern_and_mask_of_selects (selected r (by simp)) (selected r' (by simp))
    exact absurd agree (List.rel_of_pairwise_cons apart (by simp))

/-- Settles O6: each word is run through the decoder. -/
theorem sampleWordsDecode : Obligations.SampleWordsDecode :=
  ⟨rfl, rfl, rfl, rfl, rfl, rfl, rfl, rfl, rfl⟩

end Sys2Proof
end

section
/-! PROOFS. The instruction cycle (30_encoding.md R112 to R114) and the halts (60_exceptions.md). -/

namespace Sys2Proof.Machine

/-! ### The fetch, by whether it halts (R112) -/

theorem fetch_of_not_fetchHalts {s : State} (fetches : ¬ s.FetchHalts) :
    fetch s = .ok (s.opcodeAt, s.jump (s.pc + 2)) := by
  rw [fetchHalts_iff, not_not] at fetches
  obtain ⟨inside, aligned⟩ := fetches
  rcases fetch_cases s with ⟨out, -⟩ | ⟨out, -⟩ | ⟨-, odd, -⟩ | ⟨-, -, answer⟩
  · omega
  · omega
  · exact absurd odd aligned
  · exact answer

theorem fetch_of_fetchHalts {s : State} (halts : s.FetchHalts) : ∃ r, fetch s = .error r := by
  rw [fetchHalts_iff] at halts
  rcases fetch_cases s with ⟨-, answer⟩ | ⟨-, answer⟩ | ⟨-, -, answer⟩ | ⟨inside, aligned, -⟩
  · exact ⟨_, answer⟩
  · exact ⟨_, answer⟩
  · exact ⟨_, answer⟩
  · exact absurd ⟨inside, aligned⟩ halts

/-- The fetch does not look at the outputs of the step before. -/
theorem fetch_clearOutputs (s : State) :
    fetch s.clearOutputs = (fetch s).map fun fetched => (fetched.1, fetched.2.clearOutputs) := by
  have same (a : Nat) : s.clearOutputs.memRead a = s.memRead a := memRead_congr rfl rfl a
  simp only [fetch, same, clearOutputs_pc, clearOutputs_config]
  cases s.memRead s.pc.toNat with
  | error r => rfl
  | ok hi =>
    cases s.memRead (s.pc.toNat + 1) with
    | error r => rfl
    | ok lo =>
      dsimp only
      by_cases odd : (s.config.pcAlignCheck && s.pc.getLsbD 0) = true
      · rw [if_pos odd]
        exact if_pos odd
      · rw [if_neg odd]
        exact if_neg odd

/-! ### One step of a running block (R114) -/

theorem step_of_fetch_error {s : State} {r : HaltReason} (running : s.IsRunning) (answer : fetch s = .error r) :
    step s = .next (s.clearOutputs.halt r) := by
  have cleared : fetch s.clearOutputs = .error r := by rw [fetch_clearOutputs, answer]; rfl
  simp only [step, issue, running, cleared]

theorem step_of_unknown {s : State} {e : DecodeError} (running : s.IsRunning) (fetches : ¬ s.FetchHalts)
    (unknown : decodeWord s.opcodeAt = .error e) : step s = .next (s.fetched.halt (.invalidOpcode s.opcodeAt)) := by
  have cleared : fetch s.clearOutputs = .ok (s.opcodeAt, (s.jump (s.pc + 2)).clearOutputs) := by
    rw [fetch_clearOutputs, fetch_of_not_fetchHalts fetches]
    rfl
  simp only [step, issue, running, cleared, unknown]
  rfl

theorem step_of_issues {s : State} {i : Instr} (issues : s.Issues i) : step s = exec i s.fetched := by
  simp only [step, (issues_iff s i).1 issues]

/-- Everything a step of a running block can do: the fetch halts, the opcode is illegal, or an instruction executes. -/
theorem running_step_cases {s : State} (running : s.IsRunning) :
    (∃ r, s.FetchHalts ∧ step s = .next (s.clearOutputs.halt r)) ∨
    (¬ s.FetchHalts ∧ legalWord s.opcodeAt = false ∧
      step s = .next (s.fetched.halt (.invalidOpcode s.opcodeAt))) ∨
    (∃ i, s.Issues i ∧ step s = exec i s.fetched) := by
  by_cases halts : s.FetchHalts
  · obtain ⟨r, answer⟩ := fetch_of_fetchHalts halts
    exact .inl ⟨r, halts, step_of_fetch_error running answer⟩
  · obtain ⟨i, decoded, -⟩ | ⟨unknown, illegal⟩ := decodeWord_sound s.opcodeAt
    · have issues : s.Issues i := ⟨running, halts, decoded⟩
      exact .inr (.inr ⟨i, issues, step_of_issues issues⟩)
    · exact .inr (.inl ⟨halts, illegal, step_of_unknown running halts unknown⟩)

/-- What a step's instruction was is fixed by the opcode at PC. -/
theorem State.Issues.unique {s : State} {i j : Instr} (first : s.Issues i) (second : s.Issues j) : i = j := by
  obtain ⟨-, -, decoded⟩ := first
  obtain ⟨-, -, decoded'⟩ := second
  exact Except.ok.inj (decoded.symm.trans decoded')

/-- The opcode of an instruction that is issued is legal (R118). -/
theorem legalWord_of_issues {s : State} {i : Instr} (issues : s.Issues i) : legalWord s.opcodeAt = true := by
  obtain ⟨-, -, decoded⟩ := issues
  exact (unknownWordsAreTheIllegalOnes s.opcodeAt).2.2 ⟨i, decoded⟩

/-! ### The obligations -/

/-- Settles O7: the step's issue is that instruction in the fetched state. -/
theorem stepRunsTheDecodedInstruction : Obligations.StepRunsTheDecodedInstruction :=
  fun _ _ issues => step_of_issues issues

/-- Settles O8: each clause is one answer of `fetch_cases`, whose conditions exclude the others. -/
theorem fetchReadsOrHalts : Obligations.FetchReadsOrHalts := by
  intro s
  have answers := fetch_cases s
  simp only [misaligned_iff, memSize] at answers
  refine ⟨fun beyond => ?beyond, fun last => ?last, fun inside checked odd => ?odd, fun inside aligned => ?reads,
    fun r running answer => step_of_fetch_error running answer⟩
  case beyond =>
    rcases answers with ⟨-, answer⟩ | ⟨here, -⟩ | ⟨here, -⟩ | ⟨here, -⟩
    · exact answer
    all_goals omega
  case last =>
    rcases answers with ⟨here, -⟩ | ⟨here, answer⟩ | ⟨here, -⟩ | ⟨here, -⟩
    · omega
    · rw [answer, here]
    all_goals omega
  case odd =>
    rcases answers with ⟨here, -⟩ | ⟨here, -⟩ | ⟨-, -, answer⟩ | ⟨-, even, -⟩
    · omega
    · omega
    · exact answer
    · exact absurd ⟨checked, odd⟩ even
  case reads =>
    have fetches : ¬ s.FetchHalts := by
      rintro (out | ⟨checked, odd⟩)
      · omega
      · have := aligned checked
        omega
    refine ⟨_, _, _, _, memRead_ok s (by unfold memSize; omega), memRead_ok s (by unfold memSize; omega),
      fetch_of_not_fetchHalts fetches, toNat_wordOfBytes _ _, rfl, ?_⟩
    rw [jump_pc]
    bv_omega

/-- Settles O9: an illegal word decodes to Unknown, which halts after the fetch. -/
theorem illegalOpcodeHalts : Obligations.IllegalOpcodeHalts :=
  fun s running fetches illegal =>
    step_of_unknown running fetches ((unknownWordsAreTheIllegalOnes s.opcodeAt).1.1 illegal)

/-- Every step answers a next state: each outcome of the issue does. -/
theorem step_next (s : State) : ∃ t, step s = .next t := by
  obtain ⟨t, -, answer⟩ | ⟨i, t, -, answer⟩ := step_of_issue s
  · exact ⟨t, answer⟩
  · rw [answer]
    exact exec_next i t

theorem handle_next (e : HostEvent) (s : State) : ∃ t, handle e s = .next t := by
  cases e with
  | step => exact step_next s
  | reset rom => exact ⟨_, rfl⟩
  | tick => exact ⟨_, rfl⟩
  | setKey k pressed => exact ⟨_, rfl⟩

theorem runEvents_next (es : List HostEvent) (s : State) : ∃ t, runEvents es s = .next t := by
  induction es generalizing s with
  | nil => exact ⟨s, rfl⟩
  | cons e rest ih =>
    obtain ⟨u, answer⟩ := handle_next e s
    rw [runEvents_cons answer]
    exact ih u

/-- Settles O11: every event answers a next state, and a run goes on from it. -/
theorem everyRunGoesOn : Obligations.EveryRunGoesOn := ⟨step_next, runEvents_next⟩

/-- A reset, of a ROM that fits or of one too long, is the reset state but for memory, the run state and what the host
owns. -/
theorem resetWith_frame (s : State) (rom : List Byte) :
    s.resetWith rom =
      { State.reset with config := s.config, rngSupply := s.rngSupply, rngDrawn := s.rngDrawn,
                         memory := (s.resetWith rom).memory, runState := (s.resetWith rom).runState } := by
  unfold State.resetWith State.loadRom
  split
  · rfl
  · rw [setBytes_frame]

theorem pc_resetWith (s : State) (rom : List Byte) : (s.resetWith rom).pc = 0x200 :=
  (congrArg State.pc (resetWith_frame s rom) :)

/-- Settles O12: each way a running step halts is `halt` in the state the fetch found or left. -/
theorem haltingStepWritesOnlyTheRunState : Obligations.HaltingStepWritesOnlyTheRunState := by
  refine ⟨fun s t r running answer halted => ?step, fun s rom _ _ => pc_resetWith s rom⟩
  rcases running_step_cases running with ⟨r', halts, e⟩ | ⟨fetches, -, e⟩ | ⟨i, issues, e⟩
  case inl =>
    cases answer.symm.trans e
    cases halted
    exact ⟨(if_pos halts).symm, rfl⟩
  case inr.inl =>
    cases answer.symm.trans e
    cases halted
    exact ⟨(if_neg fetches).symm, rfl⟩
  case inr.inr =>
    obtain ⟨r', -, rfl⟩ | ⟨-, runs⟩ := exec_halts_or_runs i s.fetched t (e.symm.trans answer)
    · cases halted
      exact ⟨(if_neg issues.2.1).symm, rfl⟩
    · cases (halted.symm.trans runs).trans running

/-- An instruction's own check gives one reason. -/
theorem OwnHalt.unique {i : Instr} {s : State} {r r' : HaltReason} (first : OwnHalt i s r) (second : OwnHalt i s r') :
    r = r' := by
  cases i
  case ret | call | skp | sknp | ldBVx | ldIVx | ldVxI => all_goals exact first.2.trans second.2.symm
  case drw => exact first.2.2.trans second.2.2.symm
  all_goals exact first.elim

/-- Settles O13: a running step halts in one of three ways, each under its own condition, and runs on otherwise. -/
theorem stepHaltsExactlyInTheFatalConditions : Obligations.StepHaltsExactlyInTheFatalConditions := by
  intro s t running answer
  rcases running_step_cases running with ⟨r, halts, e⟩ | ⟨-, illegal, e⟩ | ⟨i, issues, e⟩
  case inl =>
    cases answer.symm.trans e
    exact ⟨iff_of_true nofun (.inl halts), fun j r' issues => absurd halts issues.2.1⟩
  case inr.inl =>
    cases answer.symm.trans e
    refine ⟨iff_of_true nofun (.inr (.inl illegal)), fun j r' issues => ?_⟩
    cases illegal.symm.trans (legalWord_of_issues issues)
  case inr.inr =>
    rcases exec_halts_or_runs i s.fetched t (e.symm.trans answer) with ⟨r, own, rfl⟩ | ⟨none, runs⟩
    · refine ⟨iff_of_true nofun (.inr (.inr ⟨i, r, issues, own⟩)), fun j r' issues' own' => ?_⟩
      rw [State.Issues.unique issues' issues] at own'
      rw [OwnHalt.unique own' own, halt_runState]
    · have noOther (j : Instr) (r' : HaltReason) (issues' : s.Issues j) : ¬ OwnHalt j s.fetched r' :=
        State.Issues.unique issues issues' ▸ none r'
      refine ⟨iff_of_false (not_not.2 (runs.trans running)) ?_,
        fun j r' issues' own' => (noOther j r' issues' own').elim⟩
      rintro (halts | illegal | ⟨j, r', issues', own'⟩)
      · exact issues.2.1 halts
      · cases illegal.symm.trans (legalWord_of_issues issues)
      · exact noOther j r' issues' own'

end Sys2Proof.Machine
end

section
/-! PROOFS. What any instruction may change, said once as the kinds of its effect, and the frame of every instruction
that follows from it (10_state.md). -/

namespace Sys2Proof.Machine

/-! ### The kinds of effect -/

/-- What an instruction that takes `s` to `t` has done. Each kind ends in the frame: `t` is `s` but for the fields the
kind may write. -/
inductive Effect (i : Instr) (s t : State) : Prop
  /-- The instruction's own check failed. -/
  | halts (r : HaltReason) (frame : t = s.halt r)
  /-- V registers of R32's list for the instruction. -/
  | registers (listed : ∀ r, ¬ MayWriteV i r → t.readV r = s.readV r) (frame : t = { s with v := t.v })
  /-- RND: its register and the RNG port. -/
  | random (x : Nibble) (kk : Byte) (isRnd : i = .rnd x kk) (listed : ∀ r, ¬ MayWriteV i r → t.readV r = s.readV r)
      (frame : t = { s with v := t.v, rngSupply := s.rngSupply.tail, rngDrawn := s.rngDrawn + 1 })
  /-- CLS and DRW: the framebuffer, VF, and the output. -/
  | draws (isDraw : isDisplay i = true) (listed : ∀ r, ¬ MayWriteV i r → t.readV r = s.readV r)
      (frame : t = { s with v := t.v, framebuffer := t.framebuffer, displayChanged := true })
  /-- LD_I, ADD_I_VX and LD_F_VX: I. -/
  | index (isIndex : (∃ nnn, i = .ldI nnn) ∨ (∃ x, i = .addIVx x) ∨ ∃ x, i = .ldFVx x) (frame : t = { s with i := t.i })
  /-- LD_DT_VX: DT. -/
  | delayTimer (x : Nibble) (isLoad : i = .ldDtVx x) (frame : t = { s with dt := t.dt })
  /-- LD_ST_VX: ST. -/
  | soundTimer (x : Nibble) (isLoad : i = .ldStVx x) (frame : t = { s with st := t.st })
  /-- LD_B_VX and LD_I_VX: bytes of memory, all at addresses of `StoresAt`. -/
  | stores (base : Nat) (bytes : List Byte) (inside : base + bytes.length ≤ memSize)
      (addresses : ∀ a, base ≤ a → a < base + bytes.length → StoresAt i s a) (isStore : t = s.setBytes base bytes)
      (frame : t = { s with memory := t.memory })
  /-- JP and JP_V0: PC, within 10_state.md R35's bound. -/
  | jumps (isJump : isTransfer i = true) (bound : t.pc.toNat ≤ 0x10FE) (frame : t = { s with pc := t.pc })
  /-- The skips: PC stays or advances by 2. -/
  | skips (isSkip : isControl i = true) (advance : t.pc = s.pc ∨ t.pc = s.pc + 2) (frame : t = { s with pc := t.pc })
  /-- LD_VX_KEY with no key pressed: PC goes back and the output is reported. -/
  | waits (x : Nibble) (isWait : i = .ldVxKey x) (noKey : ∀ k, s.key k = false)
      (frame : t = { s with pc := s.pc - 2, waiting := true })
  /-- CALL with a free entry. -/
  | calls (nnn : Addr12) (isCall : i = .call nnn) (room : s.sp.val < 16)
      (frame : t = { s with pc := zextAddr nnn, stack := s.stack.set s.sp.val s.pc room, sp := t.sp })
  /-- RET with an entry to pop. -/
  | returns (isRet : i = .ret) (nonempty : 0 < s.sp.val)
      (frame : t = { s with pc := s.stack[s.sp.val - 1], sp := t.sp })

namespace Effect
variable {i : Instr} {s : State}

theorem of_writeV {x : Nibble} {b : Byte} (mayWrite : MayWriteV i x) : Effect i s (s.writeV x b) := by
  refine .registers (fun r unlisted => ?_) rfl
  rw [readV_writeV, if_neg fun same : x = r => unlisted (same ▸ mayWrite)]

theorem of_writeWithFlag {x : Nibble} {result flag : Byte} (mayWrite : MayWriteV i x) (mayWriteFlag : MayWriteV i 0xF) :
    Effect i s (s.writeWithFlag x result flag) := by
  refine .registers (fun r unlisted => ?_) rfl
  rw [readV_writeWithFlag, if_neg fun same : r = 0xF => unlisted (same ▸ mayWriteFlag),
    if_neg fun same : x = r => unlisted (same ▸ mayWrite)]

theorem of_skipIf {c : Bool} (isSkip : isControl i = true) : Effect i s (s.skipIf c) := by
  rw [skipIf_frame]
  refine .skips isSkip ?_ rfl
  cases c
  · exact .inl rfl
  · exact .inr rfl

theorem of_setBytes {base : Nat} {bytes : List Byte} (inside : base + bytes.length ≤ memSize)
    (addresses : ∀ a, base ≤ a → a < base + bytes.length → StoresAt i s a) : Effect i s (s.setBytes base bytes) :=
  .stores base bytes inside addresses rfl (setBytes_frame bytes s base)

end Effect

/-- JP_V0's sum is at most 0xFFF + 0xFF and so does not wrap (10_state.md R35, 41_control_flow.md R167). -/
theorem toNat_indexedTarget (s : State) (nnn : Addr12) :
    (s.indexedTarget nnn).toNat = nnn.toNat + (s.readV 0x0).toNat := by
  have address := nnn.isLt
  have offset := (s.readV 0x0).isLt
  rw [State.indexedTarget, BitVec.toNat_add, toNat_zextAddr, zextByte, BitVec.toNat_setWidth]
  omega

/-- Every instruction's effect is one of the kinds. -/
theorem exec_effect (i : Instr) (s t : State) (answer : exec i s = .next t) : Effect i s t := by
  cases i
  case cls =>
    cases answer
    exact .draws rfl (fun _ _ => rfl) rfl
  case ret =>
    rcases execRet_cases s with ⟨-, e⟩ | ⟨nonempty, e⟩ <;> cases answer.symm.trans e
    · exact .halts _ rfl
    · exact .returns rfl (Nat.pos_of_ne_zero nonempty) rfl
  case call nnn =>
    rcases execCall_cases nnn s with ⟨-, e⟩ | ⟨room, e⟩ <;> cases answer.symm.trans e
    · exact .halts _ rfl
    · exact .calls nnn rfl room rfl
  case jp nnn =>
    cases answer
    have address := nnn.isLt
    exact .jumps rfl (by rw [jump_pc, toNat_zextAddr]; omega) rfl
  case jpV0 nnn =>
    cases answer
    have address := nnn.isLt
    have offset := (s.readV 0x0).isLt
    exact .jumps rfl (by rw [jump_pc, toNat_indexedTarget]; omega) rfl
  case seVxKk | sneVxKk | seVxVy | sneVxVy =>
    all_goals
      cases answer
      exact .of_skipIf rfl
  case skp x =>
    rcases execSkp_cases x s with ⟨-, e⟩ | ⟨k, -, e⟩ <;> cases answer.symm.trans e
    · exact .halts _ rfl
    · rw [← skipIf_frame]
      exact .of_skipIf rfl
  case sknp x =>
    rcases execSknp_cases x s with ⟨-, e⟩ | ⟨k, -, e⟩ <;> cases answer.symm.trans e
    · exact .halts _ rfl
    · rw [← skipIf_frame]
      exact .of_skipIf rfl
  case ldVxKk | addVxKk | ldVxVy | orVxVy | andVxVy | xorVxVy | ldVxDt =>
    all_goals
      cases answer
      exact .of_writeV rfl
  case addVxVy | subVxVy | subnVxVy | shrVxVy | shlVxVy =>
    all_goals
      cases answer
      exact .of_writeWithFlag (.inl rfl) (.inr rfl)
  case rnd x kk =>
    cases answer
    refine .random x kk rfl (fun r unlisted => ?_) (by rw [drawByte_frame]; rfl)
    rw [readV_writeV, if_neg (Ne.symm unlisted), drawByte_frame]
    rfl
  case drw x y n =>
    rcases execDrw_cases x y n s with ⟨-, -, e⟩ | ⟨-, e⟩ <;> cases answer.symm.trans e
    · exact .halts _ rfl
    · refine .draws rfl (fun r unlisted => ?_) (afterDraw_frame s _)
      exact (readV_writeV s 0xF r _).trans (if_neg (Ne.symm unlisted))
  case ldVxKey x =>
    rcases execLdVxKey_cases x s with ⟨noKey, e⟩ | ⟨k, -, -, e⟩ <;> cases answer.symm.trans e
    · exact .waits x rfl noKey rfl
    · exact .of_writeV rfl
  case ldI nnn =>
    cases answer
    exact .index (.inl ⟨nnn, rfl⟩) rfl
  case addIVx x =>
    cases answer
    exact .index (.inr (.inl ⟨x, rfl⟩)) rfl
  case ldFVx x =>
    cases answer
    exact .index (.inr (.inr ⟨x, rfl⟩)) rfl
  case ldDtVx x =>
    cases answer
    exact .delayTimer x rfl rfl
  case ldStVx x =>
    cases answer
    exact .soundTimer x rfl rfl
  case ldBVx x =>
    rcases execLdBVx_cases x s with ⟨-, e⟩ | ⟨inside, e⟩ <;> cases answer.symm.trans e
    · exact .halts _ rfl
    · exact .of_setBytes inside fun a above below => ⟨above, below⟩
  case ldIVx x =>
    rcases execLdIVx_cases x s with ⟨-, e⟩ | ⟨inside, e⟩ <;> cases answer.symm.trans e
    · exact .halts _ rfl
    · have length := length_registerBlock s x
      exact .of_setBytes (by omega) fun a above below => ⟨above, by omega⟩
  case ldVxI x =>
    rcases execLdVxI_cases x s with ⟨-, e⟩ | ⟨inside, e⟩ <;> cases answer.symm.trans e
    · exact .halts _ rfl
    · refine .registers (fun r unlisted => ?_) (writeVsFrom_frame _ s 0)
      have above : x.toNat < r.toNat := Nat.lt_of_not_le unlisted
      have small := x.isLt
      rw [readV_writeVsFrom _ s 0 r (by simp only [List.length_map, List.length_range]; omega), dif_neg]
      simp only [List.length_map, List.length_range]
      omega

/-! ### What each kind leaves: the frame, read field by field -/

namespace Effect
variable {i : Instr} {s t : State}

theorem keeps_inputs (effect : Effect i s t) : t.keypad = s.keypad ∧ t.config = s.config := by
  cases effect
  all_goals
    rename_i frame
    exact ⟨(congrArg State.keypad frame :), (congrArg State.config frame :)⟩

theorem keeps_v (effect : Effect i s t) {r : Nibble} (unlisted : ¬ MayWriteV i r) : t.readV r = s.readV r := by
  cases effect
  case registers listed _ => exact listed r unlisted
  case random listed _ => exact listed r unlisted
  case draws listed _ => exact listed r unlisted
  all_goals
    rename_i frame
    exact readV_congr (congrArg State.v frame :) r

theorem keeps_i (effect : Effect i s t) (notLdI : ∀ nnn, i ≠ .ldI nnn) (notAddI : ∀ x, i ≠ .addIVx x)
    (notLdF : ∀ x, i ≠ .ldFVx x) : t.i = s.i := by
  cases effect
  case index isIndex _ =>
    obtain ⟨nnn, e⟩ | ⟨x, e⟩ | ⟨x, e⟩ := isIndex
    · exact absurd e (notLdI nnn)
    · exact absurd e (notAddI x)
    · exact absurd e (notLdF x)
  all_goals
    rename_i frame
    exact (congrArg State.i frame :)

theorem keeps_stack (effect : Effect i s t) (notRet : i ≠ .ret) (notCall : ∀ nnn, i ≠ .call nnn) :
    t.sp = s.sp ∧ t.stack = s.stack := by
  cases effect
  case calls nnn isCall _ _ => exact absurd isCall (notCall nnn)
  case returns isRet _ _ => exact absurd isRet notRet
  all_goals
    rename_i frame
    exact ⟨(congrArg State.sp frame :), (congrArg State.stack frame :)⟩

theorem keeps_dt (effect : Effect i s t) (notLoad : ∀ x, i ≠ .ldDtVx x) : t.dt = s.dt := by
  cases effect
  case delayTimer x isLoad _ => exact absurd isLoad (notLoad x)
  all_goals
    rename_i frame
    exact (congrArg State.dt frame :)

theorem keeps_st (effect : Effect i s t) (notLoad : ∀ x, i ≠ .ldStVx x) : t.st = s.st := by
  cases effect
  case soundTimer x isLoad _ => exact absurd isLoad (notLoad x)
  all_goals
    rename_i frame
    exact (congrArg State.st frame :)

theorem keeps_display (effect : Effect i s t) (notDisplay : isDisplay i = false) :
    t.framebuffer = s.framebuffer ∧ t.displayChanged = s.displayChanged := by
  cases effect
  case draws isDraw _ _ => cases notDisplay.symm.trans isDraw
  all_goals
    rename_i frame
    exact ⟨(congrArg State.framebuffer frame :), (congrArg State.displayChanged frame :)⟩

theorem keeps_waiting (effect : Effect i s t) (notWait : ∀ x, i ≠ .ldVxKey x) : t.waiting = s.waiting := by
  cases effect
  case waits x isWait _ _ => exact absurd isWait (notWait x)
  all_goals
    rename_i frame
    exact (congrArg State.waiting frame :)

theorem keeps_rng (effect : Effect i s t) (notRnd : ∀ x kk, i ≠ .rnd x kk) :
    t.rngSupply = s.rngSupply ∧ t.rngDrawn = s.rngDrawn := by
  cases effect
  case random x kk isRnd _ _ => exact absurd isRnd (notRnd x kk)
  all_goals
    rename_i frame
    exact ⟨(congrArg State.rngSupply frame :), (congrArg State.rngDrawn frame :)⟩

theorem keeps_memoryWf (effect : Effect i s t) (wf : s.MemoryWf) : t.MemoryWf := by
  cases effect
  case stores base bytes inside _ isStore frame =>
    rw [State.MemoryWf, congrArg State.config frame, isStore]
    exact setBytes_wf bytes s base inside wf
  all_goals
    rename_i frame
    rw [State.MemoryWf, congrArg State.config frame, congrArg State.memory frame]
    exact wf

theorem keeps_memRead (effect : Effect i s t) (wf : s.MemoryWf) {a : Nat} (notStored : ¬ StoresAt i s a) :
    t.memRead a = s.memRead a := by
  cases effect
  case stores base bytes inside addresses isStore _ =>
    have outside : ¬ (base ≤ a ∧ a < base + bytes.length) := fun h => notStored (addresses a h.1 h.2)
    rw [State.memRead, State.memRead, isStore, byteAt_setBytes bytes s base a inside wf, dif_neg outside]
  all_goals
    rename_i frame
    exact memRead_congr (congrArg State.config frame :) (congrArg State.memory frame :) a

/-- An instruction that is no jump, CALL or RET leaves PC or moves it by 2. -/
theorem pc_cases (effect : Effect i s t) (notTransfer : isTransfer i = false) :
    t.pc = s.pc ∨ (isControl i = true ∧ (t.pc = s.pc + 2 ∨ t.pc = s.pc - 2)) := by
  cases effect
  case jumps isJump _ _ => cases notTransfer.symm.trans isJump
  case calls isCall _ _ =>
    subst isCall
    cases notTransfer
  case returns isRet _ _ =>
    subst isRet
    cases notTransfer
  case skips isSkip advance _ => exact advance.imp_right fun moved => ⟨isSkip, .inl moved⟩
  case waits isWait _ frame =>
    subst isWait
    exact .inr ⟨rfl, .inr (congrArg State.pc frame :)⟩
  all_goals
    rename_i frame
    exact .inl (congrArg State.pc frame :)

theorem pc_le (effect : Effect i s t) (past : 2 ≤ s.pc.toNat) (bound : s.pc.toNat ≤ 0x1000)
    (stackBound : ∀ k : Fin 16, s.stack[k].toNat ≤ 0x1000) : t.pc.toNat ≤ 0x10FE := by
  cases effect
  case jumps _ target _ => exact target
  case calls nnn _ _ frame =>
    have address := nnn.isLt
    rw [congrArg State.pc frame, toNat_zextAddr]
    omega
  case returns _ nonempty frame =>
    have popped := stackBound ⟨s.sp.val - 1, by omega⟩
    rw [congrArg State.pc frame]
    exact Nat.le_trans popped (by decide)
  case skips _ advance _ =>
    obtain same | moved := advance
    · rw [same]
      omega
    · rw [moved]
      bv_omega
  case waits _ _ frame =>
    rw [congrArg State.pc frame]
    bv_omega
  all_goals
    rename_i frame
    rw [congrArg State.pc frame]
    exact Nat.le_trans bound (by decide)

theorem stack_le (effect : Effect i s t) (bound : s.pc.toNat ≤ 0x1000)
    (stackBound : ∀ k : Fin 16, s.stack[k].toNat ≤ 0x1000) (k : Fin 16) : t.stack[k].toNat ≤ 0x1000 := by
  cases effect
  case calls nnn _ room frame =>
    rw [congrArg State.stack frame]
    change (s.stack.set s.sp.val s.pc room)[k.val].toNat ≤ 0x1000
    rw [Vector.getElem_set]
    split
    · exact bound
    · exact stackBound k
  all_goals
    rename_i frame
    rw [congrArg State.stack frame]
    exact stackBound k

end Effect

end Sys2Proof.Machine
end

section
/-! PROOFS. The invariant and the configuration along every step and every run of events. -/

namespace Sys2Proof.Machine

/-! ### The invariant (10_state.md R35, 41_control_flow.md R162) -/

/-- The fetch advances PC by 2 without wrapping, since it found both bytes of the opcode in memory. -/
theorem toNat_fetched_pc {s : State} (fetches : ¬ s.FetchHalts) :
    s.fetched.pc.toNat = s.pc.toNat + 2 ∧ s.pc.toNat < 4095 := by
  have inside : ¬ 4096 ≤ s.pc.toNat + 1 := fun out => fetches (.inl out)
  refine ⟨?_, by omega⟩
  change (s.pc + 2).toNat = _
  bv_omega

theorem inv_fetched {s : State} (inv : s.Inv) (fetches : ¬ s.FetchHalts) : s.fetched.Inv := by
  obtain ⟨wf, -, stackBound⟩ := inv
  obtain ⟨next, inside⟩ := toNat_fetched_pc fetches
  exact ⟨wf, by omega, stackBound⟩

/-- An instruction keeps the invariant, executed at a PC that a fetch can leave. -/
theorem Effect.keeps_inv {i : Instr} {s t : State} (effect : Effect i s t) (inv : s.Inv) (past : 2 ≤ s.pc.toNat)
    (bound : s.pc.toNat ≤ 0x1000) : t.Inv := by
  obtain ⟨wf, -, stackBound⟩ := inv
  exact ⟨effect.keeps_memoryWf wf, effect.pc_le past bound stackBound, effect.stack_le bound stackBound⟩

/-- Settles O14: halts and the outputs are outside the invariant, the fetch bounds the PC an instruction executes at,
and every kind of effect keeps the invariant from there. -/
theorem stepKeepsTheInvariant : Obligations.StepKeepsTheInvariant := by
  intro s t inv answer
  match runs : s.runState with
  | .halted r =>
    cases answer.symm.trans (step_halted runs)
    exact inv
  | .running =>
    rcases running_step_cases runs with ⟨r, -, e⟩ | ⟨fetches, -, e⟩ | ⟨i, issues, e⟩
    · cases answer.symm.trans e
      exact inv
    · cases answer.symm.trans e
      exact inv_fetched inv fetches
    · obtain ⟨-, fetches, -⟩ := issues
      obtain ⟨next, inside⟩ := toNat_fetched_pc fetches
      exact (exec_effect i _ t (e.symm.trans answer)).keeps_inv (inv_fetched inv fetches) (by omega) (by omega)

/-! ### The configuration -/

theorem step_keeps_config {s t : State} (answer : step s = .next t) : t.config = s.config := by
  obtain ⟨u, issued, e⟩ | ⟨i, u, issued, e⟩ := step_of_issue s
  · cases answer.symm.trans e
    obtain ⟨r, -, rfl⟩ | ⟨r, -, -, rfl⟩ | ⟨-, -, -, -, -, rfl⟩ := issue_stays issued <;> rfl
  · obtain ⟨-, rfl⟩ := issues_of_executes issued
    exact (exec_effect i _ t (e.symm.trans answer)).keeps_inputs.2

theorem resetWith_config (s : State) (rom : List Byte) : (s.resetWith rom).config = s.config :=
  (congrArg State.config (resetWith_frame s rom) :)

theorem resetWith_stack (s : State) (rom : List Byte) : (s.resetWith rom).stack = State.reset.stack :=
  (congrArg State.stack (resetWith_frame s rom) :)

/-- Settles O16: the reset image is the empty list of cells, PC is 0x200 and every stack entry 0. -/
theorem resetMeetsTheInvariant : Obligations.ResetMeetsTheInvariant := by
  unfold Obligations.ResetMeetsTheInvariant
  decide

theorem resetWith_inv (s : State) (rom : List Byte) : (s.resetWith rom).Inv := by
  obtain ⟨-, pcBound, stackBound⟩ := resetMeetsTheInvariant
  refine ⟨resetWith_wf s rom, ?_, ?_⟩
  · rw [pc_resetWith]
    exact pcBound
  · rw [resetWith_stack]
    exact stackBound

theorem tick_frame (s : State) : s.tick = { s with dt := s.tick.dt, st := s.tick.st } := by
  unfold State.tick
  split <;> rfl

/-- Every event keeps the invariant and the configuration. -/
theorem handle_keeps {e : HostEvent} {s t : State} (inv : s.Inv) (answer : handle e s = .next t) :
    t.Inv ∧ t.config = s.config := by
  cases e with
  | step => exact ⟨stepKeepsTheInvariant s t inv answer, step_keeps_config answer⟩
  | reset rom =>
    cases answer
    exact ⟨resetWith_inv s rom, resetWith_config s rom⟩
  | tick =>
    cases answer
    rw [tick_frame]
    exact ⟨inv, rfl⟩
  | setKey k pressed =>
    cases answer
    exact ⟨inv, rfl⟩

/-- A run that answers is its first event's answer and the run of the rest from there. -/
theorem runEvents_cons_inv {e : HostEvent} {rest : List HostEvent} {s t : State}
    (answer : runEvents (e :: rest) s = .next t) : ∃ u, handle e s = .next u ∧ runEvents rest u = .next t := by
  obtain ⟨u, first⟩ := handle_next e s
  exact ⟨u, first, (runEvents_cons first rest).symm.trans answer⟩

/-- Settles O15: by induction on the events, each of which keeps both. -/
theorem runsKeepTheInvariantAndTheConfiguration : Obligations.RunsKeepTheInvariantAndTheConfiguration := by
  intro es
  induction es with
  | nil =>
    intro s t inv answer
    cases answer
    exact ⟨inv, rfl⟩
  | cons e rest ih =>
    intro s t inv answer
    obtain ⟨u, first, runs⟩ := runEvents_cons_inv answer
    obtain ⟨invU, configU⟩ := handle_keeps inv first
    obtain ⟨invT, configT⟩ := ih u t invU runs
    exact ⟨invT, configT.trans configU⟩

end Sys2Proof.Machine
end

section
/-! PROOFS. Who writes what: the frame obligations, each read off the kinds of effect (10_state.md). -/

namespace Sys2Proof.Machine

/-! ### Registers -/

theorem exec_ldVxKey_of_noKey {s : State} (x : Nibble) (noKey : ∀ k, s.key k = false) :
    exec (.ldVxKey x) s = .next { s with pc := s.pc - 2, waiting := true } := by
  obtain ⟨-, answer⟩ | ⟨k, pressed, -⟩ := execLdVxKey_cases x s
  · exact answer
  · cases (noKey k).symm.trans pressed

theorem resetWith_v (s : State) (rom : List Byte) : (s.resetWith rom).v = State.reset.v :=
  (congrArg State.v (resetWith_frame s rom) :)

theorem readV_reset (r : Nibble) : State.reset.readV r = 0x00 := by
  simp [State.readV, State.reset]

/-- Settles O17: no kind of effect writes a register outside R32's list, and the waiting LD_VX_KEY writes none. -/
theorem onlyTheListedWritersWriteV : Obligations.OnlyTheListedWritersWriteV := by
  refine ⟨fun i s t r answer unlisted => (exec_effect i s t answer).keeps_v unlisted, fun s t x r noKey answer => ?wait,
    fun s r k p => ⟨?tick, rfl⟩, fun s rom r => ?reset⟩
  case wait =>
    cases answer.symm.trans (exec_ldVxKey_of_noKey x noKey)
    rfl
  case tick => exact readV_congr (congrArg State.v (tick_frame s) :) r
  case reset => exact (readV_congr (resetWith_v s rom) r).trans (readV_reset r)

/-- Settles O18: the kinds that write I, the stack or a timer are those of the named instructions. -/
theorem onlyTheListedWritersWriteIStackAndTimers : Obligations.OnlyTheListedWritersWriteIStackAndTimers := by
  intro i s t answer
  have effect := exec_effect i s t answer
  exact ⟨effect.keeps_i, effect.keeps_stack, effect.keeps_dt, effect.keeps_st⟩

/-- Settles O19: the only kind that writes memory stores at addresses of `StoresAt`. -/
theorem storesTouchOnlyTheirAddresses : Obligations.StoresTouchOnlyTheirAddresses :=
  fun i s t wf answer _ notStored => (exec_effect i s t answer).keeps_memRead wf notStored

/-- Settles O20: the only kind that draws is that of CLS and DRW, and the only one that waits that of LD_VX_KEY. -/
theorem onlyClsAndDrwWriteTheFramebuffer : Obligations.OnlyClsAndDrwWriteTheFramebuffer := by
  intro i s t answer
  have effect := exec_effect i s t answer
  exact ⟨effect.keeps_display, effect.keeps_waiting, effect.keeps_inputs⟩

/-- Settles O21: RND's one draw is `drawByte`, and no other kind writes the port. -/
theorem onlyRndDrawsARandomByte : Obligations.OnlyRndDrawsARandomByte := by
  intro i s t answer
  refine ⟨(exec_effect i s t answer).keeps_rng, ?rnd⟩
  rintro ⟨x, kk, rfl⟩
  cases answer
  rw [drawByte_frame, List.drop_one]
  exact ⟨rfl, rfl⟩

/-- The jumps, CALL and RET write PC. -/
theorem isControl_of_isTransfer {i : Instr} (transfer : isTransfer i = true) : isControl i = true := by
  cases i
  case ret | jp | call | jpV0 => all_goals rfl
  all_goals cases transfer

/-- Settles O22: an instruction executes at A + 2, which its effect leaves, advances by 2 or takes back by 2. -/
theorem pcAdvancesByTwo : Obligations.PcAdvancesByTwo := by
  intro s t i issues answer
  obtain ⟨next, inside⟩ := toNat_fetched_pc issues.2.1
  have effect := exec_effect i s.fetched t ((step_of_issues issues).symm.trans answer)
  refine ⟨fun straight => ?straight, fun notTransfer even => ?parity⟩
  case straight =>
    have notTransfer : isTransfer i = false :=
      Bool.eq_false_iff.2 fun transfer => Bool.eq_false_iff.1 straight (isControl_of_isTransfer transfer)
    obtain same | ⟨control, -⟩ := effect.pc_cases notTransfer
    · rw [same, next]
    · cases straight.symm.trans control
  case parity =>
    obtain same | ⟨-, moved | moved⟩ := effect.pc_cases notTransfer
    · rw [same]
      omega
    · rw [moved]
      bv_omega
    · rw [moved]
      bv_omega

/-! ### The two outputs (R61, R296) -/

/-- An instruction in a running state with the outputs cleared reports the display exactly when it is CLS or DRW and its
check passes. -/
theorem exec_displayChanged_iff {i : Instr} {s t : State} (running : s.IsRunning) (cleared : s.displayChanged = false)
    (answer : exec i s = .next t) : t.displayChanged = true ↔ t.IsRunning ∧ isDisplay i = true := by
  constructor
  · intro reported
    obtain ⟨r, -, rfl⟩ | ⟨-, runs⟩ := exec_halts_or_runs i s t answer
    · cases cleared.symm.trans reported
    · refine ⟨runs.trans running, Bool.not_eq_false _ ▸ fun notDisplay => ?_⟩
      have kept := ((exec_effect i s t answer).keeps_display notDisplay).2
      cases (reported.symm.trans kept).trans cleared
  · rintro ⟨runs, display⟩
    cases i
    case cls =>
      cases answer
      rfl
    case drw x y n =>
      obtain ⟨-, -, e⟩ | ⟨-, e⟩ := execDrw_cases x y n s <;> cases answer.symm.trans e
      · cases runs
      · rfl
    all_goals cases display

/-- An instruction in a state with the outputs cleared reports waiting exactly when it is LD_VX_KEY and no key is
pressed. -/
theorem exec_waiting_iff {i : Instr} {s t : State} (cleared : s.waiting = false) (answer : exec i s = .next t) :
    t.waiting = true ↔ (∃ x, i = .ldVxKey x) ∧ ∀ k, s.key k = false := by
  constructor
  · intro reported
    by_cases isWait : ∃ x, i = .ldVxKey x
    · refine ⟨isWait, ?_⟩
      obtain ⟨x, rfl⟩ := isWait
      obtain ⟨noKey, -⟩ | ⟨k, -, -, e⟩ := execLdVxKey_cases x s
      · exact noKey
      · cases answer.symm.trans e
        cases cleared.symm.trans reported
    · have kept := (exec_effect i s t answer).keeps_waiting fun x e => isWait ⟨x, e⟩
      cases (reported.symm.trans kept).trans cleared
  · rintro ⟨⟨x, rfl⟩, noKey⟩
    cases answer.symm.trans (exec_ldVxKey_of_noKey x noKey)
    rfl

/-- Settles O23: a step that executes nothing has both outputs cleared, and a step that executes reports what its
instruction, executed with the outputs cleared, reports. -/
theorem stepOutputsAreExact : Obligations.StepOutputsAreExact := by
  intro s t answer
  match runs : s.runState with
  | .halted r =>
    cases answer.symm.trans (step_halted runs)
    have halted : ¬ s.IsRunning := by rw [State.IsRunning, runs]; exact nofun
    exact ⟨iff_of_false nofun fun h => halted h.1, iff_of_false nofun fun ⟨⟨_, issues⟩, _⟩ => halted issues.1⟩
  | .running =>
    rcases running_step_cases runs with ⟨r, halts, e⟩ | ⟨-, illegal, e⟩ | ⟨i, issues, e⟩
    case inl =>
      cases answer.symm.trans e
      exact ⟨iff_of_false nofun (fun h => nomatch h.1), iff_of_false nofun fun ⟨⟨_, issues⟩, _⟩ => issues.2.1 halts⟩
    case inr.inl =>
      cases answer.symm.trans e
      refine ⟨iff_of_false nofun (fun h => nomatch h.1), iff_of_false nofun fun ⟨⟨_, issues⟩, _⟩ => ?_⟩
      cases illegal.symm.trans (legalWord_of_issues issues)
    case inr.inr =>
      have answer' := e.symm.trans answer
      refine ⟨(exec_displayChanged_iff (s := s.fetched) runs rfl answer').trans (and_congr_right fun _ => ?_),
        (exec_waiting_iff (s := s.fetched) rfl answer').trans (and_congr_left fun _ => ?_)⟩
      · exact ⟨fun display => ⟨i, issues, display⟩, fun ⟨j, issues', display⟩ => issues.unique issues' ▸ display⟩
      · exact ⟨fun ⟨x, isWait⟩ => ⟨x, isWait ▸ issues⟩, fun ⟨x, issues'⟩ => ⟨x, issues.unique issues'⟩⟩

end Sys2Proof.Machine
end

section
/-! PROOFS. ADD_VX_KK, the logic operations, the shifts and RND (42_alu.md). -/

namespace Sys2Proof.Machine

/-! ### Results and flags as natural numbers -/

theorem byte_shiftRight_one (b : Byte) : b >>> 1 = BitVec.ofNat 8 (b.toNat / 2) := by
  apply BitVec.eq_of_toNat_eq
  have bound := b.isLt
  rw [BitVec.toNat_ushiftRight, BitVec.toNat_ofNat, Nat.shiftRight_eq_div_pow]
  omega

theorem byte_shiftLeft_one (b : Byte) : b <<< 1 = BitVec.ofNat 8 (b.toNat * 2 % 256) := by
  apply BitVec.eq_of_toNat_eq
  rw [BitVec.toNat_shiftLeft, BitVec.toNat_ofNat, Nat.shiftLeft_eq, Nat.mod_mod]

theorem lowBitFlag_eq (b : Byte) : lowBitFlag b = BitVec.ofNat 8 (b.toNat % 2) := by
  apply BitVec.eq_of_toNat_eq
  rw [lowBitFlag, BitVec.toNat_and, BitVec.toNat_ofNat]
  change b.toNat &&& 1 = _
  rw [Nat.and_one_is_mod]
  omega

theorem highBitFlag_eq (b : Byte) : highBitFlag b = BitVec.ofNat 8 (b.toNat / 128) := by
  apply BitVec.eq_of_toNat_eq
  have bound := b.isLt
  rw [highBitFlag, BitVec.toNat_ushiftRight, BitVec.toNat_ofNat, Nat.shiftRight_eq_div_pow]
  omega

/-- The shift source by the switch (42_alu.md R214). -/
theorem shiftOperand_eq (s : State) (x y : Nibble) :
    s.shiftOperand x y = if s.config.shiftSource = .legacy then s.readV y else s.readV x := by
  unfold State.shiftOperand
  cases s.config.shiftSource <;> rfl

/-! ### The obligations -/

/-- Settles O26: one register write of the sum, so that VF is an untouched register unless it is VX. -/
theorem addImmediateHasNoFlag : Obligations.AddImmediateHasNoFlag := by
  intro s x kk
  rw [← byte_add_eq_ofNat]
  have sets := setsRegister_writeV s x (s.readV x + kk)
  exact ⟨_, rfl, sets, fun notVF => sets.2.2 0xF notVF.symm⟩

/-- Settles O27: each is one register write, and the bits and the case x = y are those of the bit-vector operation. -/
theorem logicOperations : Obligations.LogicOperations := by
  intro s x y
  refine ⟨⟨_, _, rfl, setsRegister_writeV s x _, fun k => BitVec.getLsbD_or, ?or⟩,
    ⟨_, _, rfl, setsRegister_writeV s x _, fun k => BitVec.getLsbD_and, ?and⟩,
    ⟨_, _, rfl, setsRegister_writeV s x _, fun k => BitVec.getLsbD_xor, ?xor⟩⟩
  case or => rintro rfl; exact BitVec.or_self
  case and => rintro rfl; exact BitVec.and_self
  case xor => rintro rfl; exact BitVec.xor_self

/-- Settles O29: `writeWithFlag` of the source shifted by one and the bit shifted out. -/
theorem shiftsByTheConfiguredSource : Obligations.ShiftsByTheConfiguredSource := by
  intro s x y src isSource
  rw [← shiftOperand_eq] at isSource
  subst isSource
  rw [← byte_shiftRight_one, ← byte_shiftLeft_one, ← lowBitFlag_eq, ← highBitFlag_eq]
  exact ⟨⟨_, rfl, setsRegisterAndFlag_writeWithFlag s x _ _⟩, ⟨_, rfl, setsRegisterAndFlag_writeWithFlag s x _ _⟩⟩

/-- Settles O30: the draw changes the RNG port only, and the masked byte is one register write. -/
theorem randomAndMask : Obligations.RandomAndMask := by
  intro s x kk
  have port (z : Nibble) : s.drawByte.2.readV z = s.readV z := readV_congr (by rw [drawByte_frame]) z
  obtain ⟨-, written, others⟩ := setsRegister_writeV s.drawByte.2 x (s.drawByte.1 &&& kk)
  refine ⟨_, s.drawByte.1, rfl, written, fun z other => (others z other).trans (port z), ?frame, ?supplied, ?empty⟩
  case frame => rw [drawByte_frame]; rfl
  case supplied =>
    intro b rest supply
    simp only [writeV_rngSupply, State.drawByte, supply, and_self]
  case empty =>
    intro supply
    simp only [writeV_rngSupply, drawByte_frame, supply, List.tail_nil]

end Sys2Proof.Machine
end

section
/-! PROOFS. The writers of I (43_index_memory.md R250 to R252). -/

namespace Sys2Proof.Machine

theorem toNat_zextByte (b : Byte) : (zextByte b).toNat = b.toNat := by
  unfold zextByte
  exact BitVec.toNat_setWidth_of_le (by decide)

/-- The mask 0x0F keeps the low nibble. -/
theorem toNat_and_0F (b : Byte) : (b &&& 0x0F).toNat = b.toNat % 16 := by
  rw [BitVec.toNat_and]
  exact Nat.and_two_pow_sub_one_eq_mod b.toNat 4

/-- FONT_BASE's legal range keeps every glyph address below 0x200. -/
theorem toNat_glyphAddress (cfg : Config) (b : Byte) :
    (glyphAddress cfg b).toNat = cfg.fontBase.val + 5 * (b.toNat % 16) := by
  have base := cfg.fontBase.isLt
  rw [glyphAddress, BitVec.toNat_ofNat, toNat_and_0F]
  omega

/-- Settles O36: each writes I alone; its value is the zero-extended address, the 16-bit sum and the glyph address. -/
theorem indexRegisterWrites : Obligations.IndexRegisterWrites := by
  intro s x nnn
  refine ⟨⟨_, rfl, rfl, toNat_zextAddr nnn⟩, ⟨_, rfl, rfl, ?sum⟩, ⟨_, rfl, rfl, toNat_glyphAddress _ _⟩⟩
  case sum => rw [BitVec.toNat_add, toNat_zextByte]

end Sys2Proof.Machine
end

section
/-! PROOFS. The jumps, and a CALL followed by a RET (41_control_flow.md). -/

namespace Sys2Proof.Machine

/-- Settles O31: both write PC alone, and JP_V0's sum fits in 16 bits. -/
theorem jumpTargets : Obligations.JumpTargets :=
  fun s nnn => ⟨⟨_, rfl, rfl, toNat_zextAddr nnn⟩, ⟨_, rfl, rfl, toNat_indexedTarget s nnn⟩⟩

/-- Settles O34: RET pops the slot that CALL pushed, and SP is back where it was. -/
theorem callThenRetReturns : Obligations.CallThenRetReturns := by
  intro s nnn room
  refine ⟨_, _, exec_call_of_room nnn s room, exec_ret_of_nonempty _ (Nat.succ_pos _), ?_⟩
  simp only [Nat.add_sub_cancel, Vector.getElem_set_self]

end Sys2Proof.Machine
end

section
/-! PROOFS. The transfers between registers and memory (43_index_memory.md), and the fetch of what they store
(20_memory.md R94). -/

namespace Sys2Proof.Machine

/-! ### Bytes stored inside memory -/

/-- A range written inside memory reads back as the bytes, and every other address as before. -/
theorem storesBytes_setBytes {s : State} {base : Nat} {bytes : List Byte} (inside : base + bytes.length ≤ memSize)
    (wf : s.MemoryWf) : StoresBytes s (s.setBytes base bytes) base bytes := by
  refine ⟨setBytes_frame bytes s base, fun k below => ?stored, fun a outside => ?kept⟩
  case stored =>
    rw [memRead_ok _ (by omega), byteAt_setBytes bytes s base _ inside wf, dif_pos ⟨by omega, by omega⟩]
    simp only [Nat.add_sub_cancel_left]
  case kept =>
    rw [State.memRead, State.memRead, byteAt_setBytes bytes s base a inside wf, dif_neg (by omega)]

theorem getElem_registerBlock (s : State) (x : Nibble) (k : Nat) (below : k < (s.registerBlock x).length) :
    (s.registerBlock x)[k] = s.readV (BitVec.ofNat 4 k) := by
  simp [State.registerBlock]

theorem ofNat_toNat_nibble (r : Nibble) : BitVec.ofNat 4 r.toNat = r := by simp

/-! ### Each transfer, by whether its check passes -/

section Transfers
variable (s : State) (x : Nibble)

theorem exec_ldBVx_of_inside (inside : s.i.toNat + 2 < 4096) :
    exec (.ldBVx x) s = .next (s.setBytes s.i.toNat (bcdDigits (s.readV x))) := by
  obtain ⟨out, -⟩ | ⟨-, answer⟩ := execLdBVx_cases x s
  · unfold memSize at out
    omega
  · exact answer

theorem exec_ldBVx_of_outside (outside : 4096 ≤ s.i.toNat + 2) :
    exec (.ldBVx x) s = .next (s.halt (.memoryOutOfBounds (max s.i.toNat 4096))) := by
  obtain ⟨-, answer⟩ | ⟨inside, -⟩ := execLdBVx_cases x s
  · exact answer
  · unfold memSize at inside
    omega

theorem exec_ldIVx_of_inside (inside : s.i.toNat + x.toNat < 4096) :
    exec (.ldIVx x) s = .next (s.setBytes s.i.toNat (s.registerBlock x)) := by
  obtain ⟨out, -⟩ | ⟨-, answer⟩ := execLdIVx_cases x s
  · unfold memSize at out
    omega
  · exact answer

theorem exec_ldIVx_of_outside (outside : 4096 ≤ s.i.toNat + x.toNat) :
    exec (.ldIVx x) s = .next (s.halt (.memoryOutOfBounds (max s.i.toNat 4096))) := by
  obtain ⟨-, answer⟩ | ⟨inside, -⟩ := execLdIVx_cases x s
  · exact answer
  · unfold memSize at inside
    omega

theorem exec_ldVxI_of_inside (inside : s.i.toNat + x.toNat < 4096) :
    exec (.ldVxI x) s = .next
      (s.writeVsFrom 0 ((List.range (x.toNat + 1)).map fun k => s.byteAt (s.i.toNat + k))) := by
  obtain ⟨out, -⟩ | ⟨-, answer⟩ := execLdVxI_cases x s
  · unfold memSize at out
    omega
  · exact answer

theorem exec_ldVxI_of_outside (outside : 4096 ≤ s.i.toNat + x.toNat) :
    exec (.ldVxI x) s = .next (s.halt (.memoryOutOfBounds (max s.i.toNat 4096))) := by
  obtain ⟨-, answer⟩ | ⟨inside, -⟩ := execLdVxI_cases x s
  · exact answer
  · unfold memSize at inside
    omega

theorem storesBytes_bcdDigits (wf : s.MemoryWf) (inside : s.i.toNat + 2 < 4096) :
    StoresBytes s (s.setBytes s.i.toNat (bcdDigits (s.readV x))) s.i.toNat (bcdDigits (s.readV x)) :=
  storesBytes_setBytes (Nat.succ_le_of_lt inside) wf

theorem storesBytes_registerBlock (wf : s.MemoryWf) (inside : s.i.toNat + x.toNat < 4096) :
    StoresBytes s (s.setBytes s.i.toNat (s.registerBlock x)) s.i.toNat (s.registerBlock x) :=
  storesBytes_setBytes (by rw [length_registerBlock]; exact Nat.succ_le_of_lt inside) wf

end Transfers

/-! ### The obligations -/

/-- Settles O37: the digits are three bytes stored inside memory, or the range check halts. -/
theorem bcdStore : Obligations.BcdStore :=
  fun s x wf =>
    ⟨fun inside => ⟨_, exec_ldBVx_of_inside s x inside, storesBytes_bcdDigits s x wf inside⟩,
      exec_ldBVx_of_outside s x⟩

/-- Settles O38: byte r of the stored block is Vr. -/
theorem registerBlockStore : Obligations.RegisterBlockStore := by
  intro s x wf
  refine ⟨fun inside => ?_, exec_ldIVx_of_outside s x⟩
  obtain ⟨frame, stored, kept⟩ := storesBytes_registerBlock s x wf inside
  rw [length_registerBlock] at kept
  refine ⟨_, exec_ldIVx_of_inside s x inside, frame, fun r listed => ?_, fun a outside => kept a (by omega)⟩
  have below : r.toNat < (s.registerBlock x).length := by
    rw [length_registerBlock]
    omega
  rw [stored r.toNat below, getElem_registerBlock, ofNat_toNat_nibble]

/-- Settles O39: register r of the block is the byte at I + r, and the registers above VX are outside it. -/
theorem registerBlockLoad : Obligations.RegisterBlockLoad := by
  intro s x
  refine ⟨fun inside => ?_, exec_ldVxI_of_outside s x⟩
  have small := x.isLt
  have length : ((List.range (x.toNat + 1)).map fun k => s.byteAt (s.i.toNat + k)).length = x.toNat + 1 := by simp
  refine ⟨_, exec_ldVxI_of_inside s x inside, writeVsFrom_frame _ s 0, fun r listed => ?loaded, fun r above => ?kept⟩
  case loaded =>
    rw [memRead_ok s (by unfold memSize; omega), readV_writeVsFrom _ s 0 r (by omega), dif_pos (by omega)]
    simp
  case kept => rw [readV_writeVsFrom _ s 0 r (by omega), dif_neg (by omega)]

/-- States whose registers read the same have the same register file. -/
theorem v_eq_of_readV {s t : State} (same : ∀ r, t.readV r = s.readV r) : t.v = s.v := by
  apply Vector.ext
  intro k below
  have read := same (BitVec.ofNat 4 k)
  unfold State.readV at read
  simpa only [toNat_ofNat_four below] using read

/-- Settles O40: the load's bytes are at the addresses the store wrote, since both leave I. -/
theorem storeThenLoadRestoresRegisters : Obligations.StoreThenLoadRestoresRegisters := by
  intro s x wf inside
  obtain ⟨t, store, frameT, stored, -⟩ := (registerBlockStore s x wf).1 inside
  have sameI : t.i = s.i := (congrArg State.i frameT :)
  have sameV (r : Nibble) : t.readV r = s.readV r := readV_congr (congrArg State.v frameT :) r
  obtain ⟨u, load, frameU, loaded, kept⟩ := (registerBlockLoad t x).1 (by rwa [sameI])
  have restored (r : Nibble) : u.readV r = s.readV r := by
    by_cases listed : r.toNat ≤ x.toNat
    · have read := loaded r listed
      rw [sameI, stored r listed] at read
      exact (Except.ok.inj read).symm
    · exact (kept r (Nat.lt_of_not_le listed)).trans (sameV r)
  refine ⟨t, u, store, load, ?_, restored⟩
  rw [frameU, v_eq_of_readV restored, frameT]

/-! ### Fetching what was stored (R94) -/

/-- After a store, a byte of memory is the stored one inside the range and the byte of before outside it. -/
theorem StoresBytes.storedOrKept {s t : State} {base : Nat} {bytes : List Byte} {stored : Nat → Byte}
    (stores : StoresBytes s t base bytes) (isStored : ∀ k (below : k < bytes.length), bytes[k] = stored k) {a : Nat}
    (inside : a < memSize) : StoredOrKept s base bytes.length stored a (t.byteAt a) := by
  obtain ⟨-, written, kept⟩ := stores
  refine ⟨fun above below => ?stored, fun outside => ?kept⟩
  case stored =>
    have read := written (a - base) (by omega)
    rw [Nat.add_sub_cancel' above, memRead_ok t inside] at read
    rw [Except.ok.inj read, isStored]
  case kept => rw [← kept a outside, memRead_ok t inside]

/-- A store is seen by the very next fetch: both read the one memory. -/
theorem StoresBytes.fetchesWhatWasStored {s t : State} {base : Nat} {bytes : List Byte} {stored : Nat → Byte}
    (stores : StoresBytes s t base bytes) (isStored : ∀ k (below : k < bytes.length), bytes[k] = stored k) :
    FetchesWhatWasStored s t base bytes.length stored := by
  intro p fetches
  have sameConfig : t.config = s.config := (congrArg State.config stores.1 :)
  have inside : ¬ 4096 ≤ p.toNat + 1 := fun out => fetches (.inl out)
  have fetches' : ¬ (t.jump p).FetchHalts := by
    unfold State.FetchHalts at fetches ⊢
    rwa [jump_config, sameConfig]
  exact ⟨t.byteAt p.toNat, t.byteAt (p.toNat + 1), _, fetch_of_not_fetchHalts fetches',
    stores.storedOrKept isStored (by unfold memSize; omega), stores.storedOrKept isStored (by unfold memSize; omega)⟩

/-- The k-th BCD digit of a byte, the most significant first. -/
theorem getElem_bcdDigits (b : Byte) (k : Nat) (below : k < (bcdDigits b).length) :
    (bcdDigits b)[k] = BitVec.ofNat 8 (b.toNat / 10 ^ (2 - k) % 10) := by
  have bound := b.isLt
  match k, below with
  | 0, _ =>
    have hundreds : b.toNat / 100 % 10 = b.toNat / 100 := by omega
    simp [bcdDigits, hundreds]
  | 1, _ => simp [bcdDigits]
  | 2, _ => simp [bcdDigits]

/-- Settles O58: both instructions store their bytes and leave PC. -/
theorem storedOpcodeIsTheNextFetched : Obligations.StoredOpcodeIsTheNextFetched := by
  intro s x wf
  refine ⟨fun inside => ?registers, fun inside => ?digits⟩
  case registers =>
    have stores := storesBytes_registerBlock s x wf inside
    have fetches := stores.fetchesWhatWasStored (getElem_registerBlock s x)
    rw [length_registerBlock] at fetches
    exact ⟨_, exec_ldIVx_of_inside s x inside, (congrArg State.pc stores.1 :), fetches⟩
  case digits =>
    have stores := storesBytes_bcdDigits s x wf inside
    exact ⟨_, exec_ldBVx_of_inside s x inside, (congrArg State.pc stores.1 :),
      stores.fetchesWhatWasStored (getElem_bcdDigits (s.readV x))⟩

/-! ### The state made for one opcode-table word (log 11) -/

theorem fetchable_iff (s : State) : fetchable s = true ↔ ¬ s.FetchHalts := by
  rw [fetchHalts_iff, not_not]
  unfold fetchable
  rw [Bool.and_eq_true, decide_eq_true_eq, Bool.not_eq_true', Bool.eq_false_iff, ne_eq, Bool.and_eq_true]

/-- Where `withFetchWord` places the word, before it stores it: the block runs and a fetch is possible at PC. -/
def State.atFetchable (s : State) : State :=
  { s with runState := .running, pc := if fetchable s then s.pc else BitVec.ofNat 16 romBase }

theorem atFetchable_fetches (s : State) : ¬ s.atFetchable.FetchHalts := by
  unfold State.FetchHalts State.atFetchable
  by_cases possible : fetchable s = true
  · rw [if_pos possible]
    exact (fetchable_iff s).1 possible
  · rw [if_neg possible]
    simp [romBase]

theorem decodeWord_of_decodeTableWord {nbits w : Nat} {i : Instr} (decoded : decodeTableWord nbits w = some i) :
    decodeWord (tableWord nbits w) = .ok i := by
  rw [decodeTableWord_eq] at decoded
  split at decoded
  · cases decoded
    assumption
  · cases decoded

/-- The word's two bytes are stored at that PC. -/
theorem storesBytes_withFetchWord {s : State} (wf : s.MemoryWf) (nbits w : Nat) :
    StoresBytes s.atFetchable (s.withFetchWord nbits w) s.atFetchable.pc.toNat
      [highByte (tableWord nbits w), lowByte (tableWord nbits w)] := by
  have inside : ¬ 4096 ≤ s.atFetchable.pc.toNat + 1 := fun out => atFetchable_fetches s (.inl out)
  exact storesBytes_setBytes (s := s.atFetchable) (Nat.lt_of_not_le inside) wf

/-- The opcode at PC is the word. -/
theorem opcodeAt_withFetchWord {s : State} (wf : s.MemoryWf) (nbits w : Nat) :
    (s.withFetchWord nbits w).opcodeAt = tableWord nbits w := by
  obtain ⟨frame, stored, -⟩ := storesBytes_withFetchWord wf nbits w
  have inside : ¬ 4096 ≤ s.atFetchable.pc.toNat + 1 := fun out => atFetchable_fetches s (.inl out)
  have samePc : (s.withFetchWord nbits w).pc = s.atFetchable.pc := (congrArg State.pc frame :)
  have high := stored 0 (by simp)
  have low := stored 1 (by simp)
  rw [memRead_ok _ (by unfold memSize; omega)] at high low
  rw [State.opcodeAt, samePc, Except.ok.inj low]
  exact (congrArg (wordOfBytes · _) (Except.ok.inj high)).trans (wordOfBytes_high_low _)

/-- Settles O59: the two bytes of the word are the opcode at PC, where a fetch is possible. -/
theorem fetchWordRunsNext : Obligations.FetchWordRunsNext := by
  intro s nbits w i wf decoded
  obtain ⟨frame, -, -⟩ := storesBytes_withFetchWord wf nbits w
  have issues : (s.withFetchWord nbits w).Issues i := by
    refine ⟨(congrArg State.runState frame :), ?fetches, ?opcode⟩
    case fetches =>
      rw [frame]
      exact atFetchable_fetches s
    case opcode => rw [opcodeAt_withFetchWord wf, decodeWord_of_decodeTableWord decoded]
  exact ⟨issues, step_of_issues issues⟩

end Sys2Proof.Machine
end

section
/-! PROOFS. CLS and DRW (44_display.md). -/

namespace Sys2Proof.Machine

/-- Settles O41: the cleared framebuffer has no lit pixel, and the output is written unconditionally. -/
theorem clearScreen : Obligations.ClearScreen :=
  fun _ => ⟨_, rfl, fun px py => pixel_clear (px, py), rfl⟩

/-! ### The sprite DRW draws -/

/-- The rows of a sprite of n rows at I. -/
def State.spriteRows (s : State) (n : Nibble) : List Byte :=
  (List.range n.toNat).map fun k => s.byteAt (s.i.toNat + k)

/-- The pixels its 1 bits land on. -/
def State.spritePixels (s : State) (x y n : Nibble) : List (Fin 64 × Fin 32) :=
  spriteTargets s.config.spriteEdge (s.startColumn x) (s.startRow y) (s.spriteRows n)

theorem length_spriteRows (s : State) (n : Nibble) : (s.spriteRows n).length = n.toNat := by
  simp [State.spriteRows]

theorem nodup_spritePixels (s : State) (x y n : Nibble) : (s.spritePixels x y n).Nodup :=
  nodup_spriteTargets _ _ _ _ (by rw [length_spriteRows]; exact n.isLt)

section Draws
variable (s : State) (x y n : Nibble)

theorem exec_drw_of_inside (inside : n.toNat = 0 ∨ s.i.toNat + n.toNat ≤ 4096) :
    exec (.drw x y n) s = .next (s.afterDraw (drawPixels (s.spritePixels x y n) (s.framebuffer, false))) := by
  obtain ⟨some, out, -⟩ | ⟨-, answer⟩ := execDrw_cases x y n s
  · unfold memSize at out
    omega
  · exact answer

theorem exec_drw_of_outside (some : 0 < n.toNat) (outside : 4096 < s.i.toNat + n.toNat) :
    exec (.drw x y n) s = .next (s.halt (.memoryOutOfBounds (max s.i.toNat 4096))) := by
  obtain ⟨-, -, answer⟩ | ⟨inside, -⟩ := execDrw_cases x y n s
  · exact answer
  · unfold memSize at inside
    omega

/-- The statements' word for the drawn pixels is membership in the drawn list. -/
theorem spriteCovers_iff (inside : n.toNat = 0 ∨ s.i.toNat + n.toNat ≤ 4096) (px : Fin 64) (py : Fin 32) :
    SpriteCovers s x y n px py ↔ (px, py) ∈ s.spritePixels x y n := by
  have read (r : Nat) (below : r < n.toNat) : s.memRead (s.i.toNat + r) = .ok (s.byteAt (s.i.toNat + r)) :=
    memRead_ok s (by unfold memSize; omega)
  unfold SpriteCovers State.spritePixels
  simp only [mem_spriteTargets, spriteTarget_eq_some, length_spriteRows]
  constructor
  · rintro ⟨r, c, row, below, column, isRow, lit, lands⟩
    cases Except.ok.inj ((read r below).symm.trans isRow)
    exact ⟨r, c, below, column, by simpa [State.spriteRows] using lit, lands⟩
  · rintro ⟨r, c, below, column, lit, lands⟩
    exact ⟨r, c, _, below, column, read r below, by simpa [State.spriteRows] using lit, lands⟩

end Draws

/-- Registers after a draw: the collision in VF, the others as before. -/
theorem readV_afterDraw (s : State) (drawn : Framebuffer × Bool) (r : Nibble) :
    (s.afterDraw drawn).readV r = if 0xF = r then collisionFlag drawn.2 else s.readV r :=
  readV_writeV s 0xF r _

/-- A pixel after a draw. -/
theorem getPixel_afterDraw (s : State) (x y n : Nibble) (px : Fin 64) (py : Fin 32) :
    (s.afterDraw (drawPixels (s.spritePixels x y n) (s.framebuffer, false))).getPixel px py =
      (s.getPixel px py ^^ decide ((px, py) ∈ s.spritePixels x y n)) :=
  pixel_drawPixels _ _ _ _ (nodup_spritePixels s x y n)

/-- The collision of a draw: a drawn pixel was lit. -/
theorem collided_iff (s : State) (x y n : Nibble) :
    (drawPixels (s.spritePixels x y n) (s.framebuffer, false)).2 = true ↔
      ∃ px py, (px, py) ∈ s.spritePixels x y n ∧ s.getPixel px py = true := by
  rw [collided_drawPixels _ _ _ (nodup_spritePixels s x y n), Bool.false_or, List.any_eq_true, Prod.exists]
  rfl

/-! ### The obligations -/

/-- Settles O42: drawing flips the pixels of the drawn list, which are distinct, and VF is the collision among them. -/
theorem drawFlipsTheSpritesPixels : Obligations.DrawFlipsTheSpritesPixels := by
  intro s x y n
  refine ⟨fun inside => ⟨_, exec_drw_of_inside s x y n inside, fun px py => ?pixels, ?collision, fun r notVF => ?kept,
    afterDraw_frame s _⟩, exec_drw_of_outside s x y n⟩
  case pixels =>
    rw [getPixel_afterDraw, spriteCovers_iff s x y n inside]
    by_cases drawn : (px, py) ∈ s.spritePixels x y n <;> simp [drawn]
  case collision =>
    simp only [spriteCovers_iff s x y n inside, ← collided_iff, readV_afterDraw, if_true]
    cases (drawPixels (s.spritePixels x y n) (s.framebuffer, false)).2 <;> simp [collisionFlag, flagByte]
  case kept => rw [readV_afterDraw, if_neg notVF.symm]

/-- Settles O43: the empty sprite draws no pixel and collides with none, whatever I is. -/
theorem drawOfNoRows : Obligations.DrawOfNoRows := by
  intro s x y
  exact ⟨_, exec_drw_of_inside s x y 0x0 (.inl rfl), rfl, (readV_afterDraw s _ 0xF).trans (if_pos rfl),
    fun r notVF => (readV_afterDraw s _ r).trans (if_neg notVF.symm)⟩

/-- Framebuffers with the same pixels are the same. -/
theorem framebuffer_ext {fb fb' : Framebuffer} (same : ∀ q, Framebuffer.pixel fb q = Framebuffer.pixel fb' q) :
    fb = fb' := by
  apply Vector.ext
  intro row rowBelow
  apply Vector.ext
  intro column columnBelow
  exact same (⟨column, columnBelow⟩, ⟨row, rowBelow⟩)

/-- A draw moves no pixel of the same sprite's next draw when VF is neither coordinate: it leaves memory, I and both
coordinates. -/
theorem spritePixels_afterDraw (s : State) {x y : Nibble} (n : Nibble) (drawn : Framebuffer × Bool) (notX : x ≠ 0xF)
    (notY : y ≠ 0xF) : (s.afterDraw drawn).spritePixels x y n = s.spritePixels x y n := by
  have sameX := (readV_afterDraw s drawn x).trans (if_neg notX.symm)
  have sameY := (readV_afterDraw s drawn y).trans (if_neg notY.symm)
  unfold State.spritePixels State.startColumn State.startRow
  rw [sameX, sameY]
  rfl

/-- Settles O44: both draws flip the same pixels, and a pixel flipped twice is as before. -/
theorem drawingTwiceRestoresTheFramebuffer : Obligations.DrawingTwiceRestoresTheFramebuffer := by
  intro s x y n notX notY inside
  refine ⟨_, _, exec_drw_of_inside s x y n inside, exec_drw_of_inside _ x y n inside, framebuffer_ext fun q => ?_⟩
  obtain ⟨px, py⟩ := q
  refine (getPixel_afterDraw _ x y n px py).trans ?_
  rw [getPixel_afterDraw, spritePixels_afterDraw s n _ notX notY, Bool.xor_assoc, Bool.xor_self, Bool.xor_false]
  rfl

end Sys2Proof.Machine
end

section
/-! PROOFS. The key tests and the key wait (45_keypad_timers.md). -/

namespace Sys2Proof.Machine

/-! ### SKP and SKNP (R320, R321) -/

section KeyTests
variable {s : State} {x : Nibble}

theorem exec_skp_of_key {k : Nibble} (names : (s.readV x).toNat = k.toNat) :
    exec (.skp x) s = .next (s.skipIf (s.key k)) := by
  rw [exec, execSkp, keyOperand_ok s x k names, completeWith_ok]

theorem exec_sknp_of_key {k : Nibble} (names : (s.readV x).toNat = k.toNat) :
    exec (.sknp x) s = .next (s.skipIf (!s.key k)) := by
  rw [exec, execSknp, keyOperand_ok s x k names, completeWith_ok]

theorem exec_skp_of_high (high : 0x0F < (s.readV x).toNat) :
    exec (.skp x) s = .next (s.halt (.keyIndexOutOfRange (s.readV x))) := by
  rw [exec, execSkp, keyOperand_error s x high, completeWith_error]

theorem exec_sknp_of_high (high : 0x0F < (s.readV x).toNat) :
    exec (.sknp x) s = .next (s.halt (.keyIndexOutOfRange (s.readV x))) := by
  rw [exec, execSknp, keyOperand_error s x high, completeWith_error]

end KeyTests

/-- Settles O45: a value up to 0x0F names its key, on which SKP skips and SKNP does not; a higher one halts. -/
theorem keySkips : Obligations.KeySkips := by
  intro s x k
  refine ⟨fun names => ⟨?skp, ?sknp⟩, fun high => ⟨exec_skp_of_high high, exec_sknp_of_high high⟩⟩
  case skp => exact ⟨_, exec_skp_of_key names, skipIf_of_iff s Iff.rfl Iff.rfl⟩
  case sknp =>
    exact ⟨_, exec_sknp_of_key names,
      skipIf_of_iff s (iff_of_eq (Bool.not_eq_true' _)) (iff_of_eq (Bool.not_eq_false' _))⟩

/-! ### LD_VX_KEY (R322) -/

/-- LD_VX_KEY takes the smallest pressed key: two keys that are both pressed with none smaller are the same. -/
theorem exec_ldVxKey_of_smallest {s : State} {k : Nibble} (x : Nibble) (pressed : s.key k = true)
    (smallest : ∀ j : Nibble, j.toNat < k.toNat → s.key j = false) :
    exec (.ldVxKey x) s = .next (s.writeV x (BitVec.ofNat 8 k.toNat)) := by
  obtain ⟨noKey, -⟩ | ⟨k', pressed', smallest', answer⟩ := execLdVxKey_cases x s
  · cases (noKey k).symm.trans pressed
  · have notBelow : ¬ k'.toNat < k.toNat := fun below => by cases (smallest k' below).symm.trans pressed'
    have notAbove : ¬ k.toNat < k'.toNat := fun above => by cases (smallest' k above).symm.trans pressed
    have same : k' = k := BitVec.eq_of_toNat_eq (by omega)
    rw [BitVec.ofNat_toNat, ← same]
    exact answer

/-- Settles O46: the smallest pressed key is one register write, and with none pressed the wait is the whole effect. -/
theorem keyWait : Obligations.KeyWait :=
  fun s x =>
    ⟨fun _ pressed smallest => ⟨_, exec_ldVxKey_of_smallest x pressed smallest, setsRegister_writeV s x _⟩,
      exec_ldVxKey_of_noKey x⟩

/-- A waiting step is back at its own PC with the outputs written. -/
theorem step_of_wait {s : State} {x : Nibble} (issues : s.Issues (.ldVxKey x)) (noKey : ∀ j, s.key j = false) :
    step s = .next { s with displayChanged := false, waiting := true } := by
  have back : s.pc + 2 - 2 = s.pc := BitVec.add_sub_cancel _ _
  rw [step_of_issues issues, exec_ldVxKey_of_noKey (s := s.fetched) x noKey]
  simp only [State.fetched, back]

/-- When a key is pressed while the block waits, the step after completes the instruction with that one key. -/
theorem step_of_press {s : State} {x : Nibble} (k : Nibble) (issues : s.Issues (.ldVxKey x))
    (noKey : ∀ j, s.key j = false) :
    step (s.withKey k true) = .next ((s.withKey k true).fetched.writeV x (BitVec.ofNat 8 k.toNat)) := by
  have down : (s.withKey k true).key k = true := by rw [key_withKey, if_pos rfl]
  have only (j : Nibble) (below : j.toNat < k.toNat) : (s.withKey k true).key j = false := by
    rw [key_withKey, if_neg fun same : k = j => Nat.lt_irrefl _ (same ▸ below)]
    exact noKey j
  have again : (s.withKey k true).Issues (.ldVxKey x) := issues
  exact (step_of_issues again).trans (exec_ldVxKey_of_smallest x down only)

/-- Settles O47: the wait leaves the opcode at PC, so that the step after the key press issues LD_VX_KEY again. -/
theorem waitEndsAtTheNextStepAfterAKeyPress : Obligations.WaitEndsAtTheNextStepAfterAKeyPress := by
  intro s x k issues noKey
  have completes := step_of_press (s := { s with displayChanged := false, waiting := true }) k issues noKey
  refine ⟨_, _, step_of_wait issues noKey, rfl, (runEvents_cons rfl _).trans (runEvents_cons (e := .step) completes _),
    ?taken, ?pc, ?waiting⟩
  case taken => rw [readV_writeV, if_pos rfl]
  case pc | waiting => all_goals rfl

end Sys2Proof.Machine
end

section
/-! PROOFS. Ticks, key events, resets and the Halted state (60_exceptions.md, 70_reset_and_hazards.md). -/

namespace Sys2Proof.Machine

/-! ### Ticks and key events -/

/-- Settles O50: by induction on the ticks, each of which takes 1 from a timer above 0. -/
theorem timersReachZeroAndStay : Obligations.TimersReachZeroAndStay := by
  intro s t k
  induction k generalizing s with
  | zero =>
    intro _ answer
    cases answer
    exact ⟨rfl, rfl, rfl⟩
  | succ k ih =>
    intro running answer
    rw [List.replicate_succ, runEvents_cons (handle_tick_running running)] at answer
    obtain ⟨dt, st, frame⟩ := ih { s with dt := decremented s.dt, st := decremented s.st } running answer
    rw [toNat_decremented] at dt st
    exact ⟨by omega, by omega, frame⟩

/-- Settles O51: one slot of the keypad is set, whatever the run state. -/
theorem setKeyWritesOneKey : Obligations.SetKeyWritesOneKey := by
  intro s k pressed
  refine ⟨_, rfl, rfl, ?set, fun j other => ?kept⟩
  case set => rw [key_withKey, if_pos rfl]
  case kept => rw [key_withKey, if_neg other.symm]

/-- Settles O54: the sound output compares ST with 0, and the codes and information are those of R351's table. -/
theorem reportedSoundAndRunState : Obligations.ReportedSoundAndRunState := by
  intro s w pc a n b
  refine ⟨?sound, rfl, ⟨rfl, rfl⟩, ⟨rfl, rfl⟩, ⟨rfl, rfl⟩, ⟨rfl, rfl⟩, ⟨rfl, rfl⟩, ⟨rfl, rfl⟩, ⟨rfl, rfl⟩⟩
  case sound =>
    rw [soundActive_iff]
    exact ⟨fun nonzero => by bv_omega, fun above zero => by simp [zero] at above⟩

/-! ### Resets -/

/-- Memory that lists nothing reads as the reset image. -/
theorem unlisted_eq_resetByte (cfg : Config) (a : Nat) : Memory.unlisted cfg a = resetByte cfg [] a := by
  unfold resetByte
  rw [dif_neg (by simp only [List.length_nil]; omega)]
  rfl

/-- Settles O52: the reset state but for memory, whose every byte is `resetByte`. -/
theorem resetLoadsTheRom : Obligations.ResetLoadsTheRom := by
  intro s rom fits
  have bytes (a : Nat) (inside : a < 4096) : (s.resetWith rom).memRead a = .ok (resetByte s.config rom a) := by
    rw [memRead_ok _ inside, byteAt_resetWith s fits]
  have registers (r : Nibble) : (s.resetWith rom).readV r = 0x00 :=
    (readV_congr (resetWith_v s rom) r).trans (readV_reset r)
  refine ⟨_, rfl, ?runs, ?pc, bytes, registers, ?i, ?dt, ?st, ?sp, fun k => ?stack, fun px py => ?pixel, fun k => ?key⟩
  case runs | pc | i | dt | st | sp =>
    all_goals
      rw [resetWith_fits s fits]
      rfl
  case stack =>
    rw [resetWith_stack]
    simp [State.reset]
  case pixel =>
    rw [resetWith_fits s fits]
    exact pixel_clear (px, py)
  case key =>
    rw [resetWith_fits s fits]
    simp [State.key, State.reset]

/-- Steps of a halted block whose outputs are clear change nothing at all. -/
theorem runEvents_replicate_step_of_halted {s : State} {r : HaltReason} (halted : s.runState = .halted r)
    (cleared : s.clearOutputs = s) (k : Nat) : runEvents (List.replicate k .step) s = .next s := by
  induction k with
  | zero => rfl
  | succ k ih =>
    have first : handle .step s = .next s := (step_halted halted).trans (congrArg Host.Outcome.next cleared)
    rw [List.replicate_succ, runEvents_cons first, ih]

/-- Settles O53: the reset state halted with the length, its memory the reset image, and steps leave it. -/
theorem oversizedRomHalts : Obligations.OversizedRomHalts := by
  intro s rom long
  have reset := resetWith_oversized s long
  have halted : (s.resetWith rom).runState = .halted (.romTooLarge rom.length) := by rw [reset]
  have cleared : (s.resetWith rom).clearOutputs = s.resetWith rom := by rw [reset]; rfl
  refine ⟨_, rfl, halted, fun a inside => ?image, fun k =>
    ⟨_, runEvents_replicate_step_of_halted halted cleared k, cleared.symm⟩⟩
  case image =>
    rw [memRead_ok _ inside, reset, ← unlisted_eq_resetByte]
    rfl

/-- What a write of bytes leaves in memory depends on the configuration and the memory alone. -/
theorem setBytes_memory_congr {s t : State} (sameConfig : t.config = s.config) (sameMemory : t.memory = s.memory)
    (bytes : List Byte) (a : Nat) : (t.setBytes a bytes).memory = (s.setBytes a bytes).memory := by
  induction bytes generalizing s t a with
  | nil => exact sameMemory
  | cons b bytes ih =>
    exact ih (s := s.setByte a b) (t := t.setByte a b) sameConfig
      (by simp only [setByte_memory, sameConfig, sameMemory]) (a + 1)

theorem resetWith_memory_congr {s s' : State} (sameConfig : s.config = s'.config) (rom : List Byte) :
    (s.resetWith rom).memory = (s'.resetWith rom).memory := by
  unfold State.resetWith State.loadRom
  split
  · rfl
  · apply setBytes_memory_congr
    · exact sameConfig
    · rfl

/-- Settles O55: a reset reads the configuration only, and leaves the RNG port. -/
theorem resetForgetsTheSession : Obligations.ResetForgetsTheSession := by
  intro s s' rom sameConfig
  have sameMemory := resetWith_memory_congr sameConfig rom
  by_cases fits : rom.length ≤ 3584
  · rw [resetWith_fits s fits, resetWith_fits s' fits, sameMemory, sameConfig]
  · have long := Nat.lt_of_not_le fits
    rw [resetWith_oversized s long, resetWith_oversized s' long, sameConfig]

/-! ### The Halted state -/

/-- An event other than reset changes a halted block in its keys and outputs only. -/
theorem handle_halted_frame {e : HostEvent} {s t : State} {r : HaltReason} (halted : s.runState = .halted r)
    (notReset : ∀ rom, .reset rom ≠ e) (answer : handle e s = .next t) :
    t = { s with keypad := t.keypad, displayChanged := t.displayChanged, waiting := t.waiting } := by
  cases e with
  | reset rom => exact absurd rfl (notReset rom)
  | step =>
    cases answer.symm.trans (step_halted halted)
    rfl
  | tick =>
    cases answer
    rw [tick_halted halted]
  | setKey k pressed =>
    cases answer
    rfl

/-- Settles O56: by induction on the events, each of which leaves the block halted. -/
theorem onlyResetLeavesHalted : Obligations.OnlyResetLeavesHalted := by
  intro es
  induction es with
  | nil =>
    intro s t r _ _ answer
    cases answer
    rfl
  | cons e rest ih =>
    intro s t r halted noReset answer
    obtain ⟨u, first, runs⟩ := runEvents_cons_inv answer
    have frame := handle_halted_frame halted (fun rom same => noReset rom (same ▸ List.mem_cons_self)) first
    have frame' := ih u t r ((congrArg State.runState frame :).trans halted)
      (fun rom mem => noReset rom (List.mem_cons_of_mem _ mem)) runs
    rw [frame', frame]

/-! ### The font after a reset -/

/-- A byte of FONT_DATA after a reset: the font lies below the ROM, in FONT_BASE's legal range. -/
theorem memRead_font_resetWith (s : State) {rom : List Byte} (fits : rom.length ≤ 3584) {k : Nat} (below : k < 80) :
    (s.resetWith rom).memRead (s.config.fontBase.val + k) = .ok s.config.fontData[k] := by
  have low := s.config.fontBase.isLt
  rw [memRead_ok _ (by unfold memSize; omega), byteAt_resetWith s fits, resetByte, dif_neg (by omega),
    dif_pos ⟨by omega, by omega⟩]
  simp only [Nat.add_sub_cancel_left]

/-- Settles O57: I is the glyph's address, and the glyph's bytes are FONT_DATA's. -/
theorem glyphOfTheLowNibble : Obligations.GlyphOfTheLowNibble := by
  intro s rom x b k fits
  have glyph : 5 * (b.toNat % 16) + k.val < 80 := by omega
  refine ⟨_, rfl, ?_⟩
  change (s.resetWith rom).memRead
    ((glyphAddress (s.resetWith rom).config (((s.resetWith rom).writeV x b).readV x)).toNat + k.val) = _
  rw [toNat_glyphAddress, resetWith_config, readV_writeV, if_pos rfl, Nat.add_assoc]
  exact memRead_font_resetWith s fits glyph

end Sys2Proof.Machine
end

section
/-! PROOFS. No instruction reads ST (10_state.md R42): two runs that differ only in ST. -/

namespace Sys2Proof.Machine

/-- Two answers are next states that differ at most in ST. -/
def AgreeButSt (p q : StepResult) : Prop :=
  ∃ t u, p = .next t ∧ q = .next u ∧ u = { t with st := u.st }

theorem agreeButSt_of_eq {p q : StepResult} {t u : State} {b : Byte} (first : p = .next t) (second : q = .next u)
    (differs : u = { t with st := b }) : AgreeButSt p q :=
  ⟨t, u, first, second, by rw [differs]⟩

/-! ### The shared operations that loop or branch, started with another ST -/

section OtherSt
variable (s : State) (b : Byte)

theorem skipIf_st (c : Bool) : State.skipIf { s with st := b } c = { s.skipIf c with st := b } := by
  cases c <;> rfl

theorem drawByte_st : State.drawByte { s with st := b } = (s.drawByte.1, { s.drawByte.2 with st := b }) := by
  unfold State.drawByte
  dsimp only
  split <;> rfl

theorem setBytes_st (bytes : List Byte) (a : Nat) :
    State.setBytes { s with st := b } a bytes = { s.setBytes a bytes with st := b } := by
  induction bytes generalizing s a with
  | nil => rfl
  | cons c bytes ih => exact ih (s.setByte a c) (a + 1)

theorem writeVsFrom_st (bytes : List Byte) (k : Nat) :
    State.writeVsFrom { s with st := b } k bytes = { s.writeVsFrom k bytes with st := b } := by
  induction bytes generalizing s k with
  | nil => rfl
  | cons c bytes ih => exact ih (s.writeV (BitVec.ofNat 4 k) c) (k + 1)

/-- Every instruction answers alike from two states that differ only in ST: a check reads none of ST, and neither do the
writes after it. -/
theorem exec_agreeButSt (i : Instr) : AgreeButSt (exec i s) (exec i { s with st := b }) := by
  cases i
  case ret =>
    obtain empty | nonempty := Nat.eq_zero_or_pos s.sp.val
    · exact agreeButSt_of_eq (exec_ret_of_empty s empty) (exec_ret_of_empty _ empty) rfl
    · exact agreeButSt_of_eq (exec_ret_of_nonempty s nonempty) (exec_ret_of_nonempty { s with st := b } nonempty) rfl
  case call nnn =>
    by_cases room : s.sp.val < 16
    · exact agreeButSt_of_eq (exec_call_of_room nnn s room) (exec_call_of_room nnn { s with st := b } room) rfl
    · have full : s.sp.val = 16 := by omega
      exact agreeButSt_of_eq (exec_call_of_full nnn s full) (exec_call_of_full nnn _ full) rfl
  case seVxKk | sneVxKk | seVxVy | sneVxVy => all_goals exact agreeButSt_of_eq rfl rfl (skipIf_st s b _)
  case skp x =>
    by_cases high : 0x0F < (s.readV x).toNat
    · exact agreeButSt_of_eq (exec_skp_of_high high) (exec_skp_of_high high) rfl
    · have named : (s.readV x).toNat = (BitVec.ofNat 4 (s.readV x).toNat).toNat := by rw [toNat_ofNat_four (by omega)]
      exact agreeButSt_of_eq (exec_skp_of_key named) (exec_skp_of_key named) (skipIf_st s b _)
  case sknp x =>
    by_cases high : 0x0F < (s.readV x).toNat
    · exact agreeButSt_of_eq (exec_sknp_of_high high) (exec_sknp_of_high high) rfl
    · have named : (s.readV x).toNat = (BitVec.ofNat 4 (s.readV x).toNat).toNat := by rw [toNat_ofNat_four (by omega)]
      exact agreeButSt_of_eq (exec_sknp_of_key named) (exec_sknp_of_key named) (skipIf_st s b _)
  case rnd x kk =>
    refine agreeButSt_of_eq (b := b) rfl rfl ?_
    rw [drawByte_st]
    rfl
  case drw x y n =>
    by_cases inside : n.toNat = 0 ∨ s.i.toNat + n.toNat ≤ 4096
    · exact agreeButSt_of_eq (exec_drw_of_inside s x y n inside) (exec_drw_of_inside _ x y n inside) rfl
    · have out : 0 < n.toNat ∧ 4096 < s.i.toNat + n.toNat := by omega
      exact agreeButSt_of_eq (exec_drw_of_outside s x y n out.1 out.2) (exec_drw_of_outside _ x y n out.1 out.2) rfl
  case ldVxKey x =>
    obtain ⟨noKey, -⟩ | ⟨k, pressed, smallest, -⟩ := execLdVxKey_cases x s
    · exact agreeButSt_of_eq (exec_ldVxKey_of_noKey x noKey) (exec_ldVxKey_of_noKey x noKey) rfl
    · exact agreeButSt_of_eq (exec_ldVxKey_of_smallest x pressed smallest)
        (exec_ldVxKey_of_smallest x pressed smallest) rfl
  case ldBVx x =>
    by_cases inside : s.i.toNat + 2 < 4096
    · exact agreeButSt_of_eq (exec_ldBVx_of_inside s x inside) (exec_ldBVx_of_inside _ x inside) (setBytes_st s b _ _)
    · have out := Nat.le_of_not_lt inside
      exact agreeButSt_of_eq (exec_ldBVx_of_outside s x out) (exec_ldBVx_of_outside _ x out) rfl
  case ldIVx x =>
    by_cases inside : s.i.toNat + x.toNat < 4096
    · exact agreeButSt_of_eq (exec_ldIVx_of_inside s x inside) (exec_ldIVx_of_inside _ x inside) (setBytes_st s b _ _)
    · have out := Nat.le_of_not_lt inside
      exact agreeButSt_of_eq (exec_ldIVx_of_outside s x out) (exec_ldIVx_of_outside _ x out) rfl
  case ldVxI x =>
    by_cases inside : s.i.toNat + x.toNat < 4096
    · exact agreeButSt_of_eq (exec_ldVxI_of_inside s x inside) (exec_ldVxI_of_inside _ x inside)
        (writeVsFrom_st s b _ _)
    · have out := Nat.le_of_not_lt inside
      exact agreeButSt_of_eq (exec_ldVxI_of_outside s x out) (exec_ldVxI_of_outside _ x out) rfl
  all_goals exact ⟨_, _, rfl, rfl, rfl⟩

end OtherSt

/-- Settles O24: both runs take the same branch and write the same values. -/
theorem noInstructionReadsTheSoundTimer : Obligations.NoInstructionReadsTheSoundTimer :=
  fun i s b => exec_agreeButSt s b i

end Sys2Proof.Machine
end
